-- ==== Sys2Proof/Word.lean ====
section
/-! DEFINITION. The word types of the engine: octets, hex digits, and the widths of registers and ports. -/

namespace Sys2Proof

/-- One octet of the raw stream, one cell of the stream buffer (R19, R38 of spec/10_state.md). -/
abbrev Byte := BitVec 8

/-- The value 0 to 15 of one hex character (R72 of spec/30_encoding.md). -/
abbrev Nibble := BitVec 4

/-- One input event word, format IN9 (R70). -/
abbrev EventWord := BitVec 9

/-- A diagnostic counter, `CNT_W` = 32 bits (R35). -/
abbrev Count := BitVec 32

end Sys2Proof
end

