-- ==== Sys2Proof/Config.lean ====
section
/-! DEFINITION. What is fixed before the engine runs (R6 to R8 of spec/00_scope.md), and the closed
enumerations of its configuration and control values (R28 to R36 of spec/10_state.md). -/

namespace Sys2Proof

/-- `FRAME_WIDTH` in octets (R6). -/
abbrev frameWidth : Nat := 4

/-- `TEXT_FRAME_WIDTH` in hex characters (R6). -/
abbrev textFrameWidth : Nat := 8

/-- `COUNTER_MAX`, the greatest counter of a validated frame (R6). -/
abbrev counterMax : Byte := 0x7F#8

/-- `SCALE`: the record carries the pressure as a count of `1 / SCALE` (R6, R162). -/
abbrev scale : Nat := 100

/-- `BUF_DEPTH`: a positive integer, or infinity (R8, R38; left OPEN by spec/92_eei_decisions.md). -/
inductive BufDepth where
  | cells (n : ℕ+)
  | infinite
  deriving DecidableEq, Repr

/-- The two elaboration-time parameters: `SYNC_MARKER` (R7) and `BUF_DEPTH` (R8). No operation writes them. -/
structure Params where
  marker : Byte
  bufDepth : BufDepth
  deriving DecidableEq, Repr

/-- `SYNC_MARKER`'s default (R7). -/
abbrev defaultMarker : Byte := 0x80#8

/-- The parameters of the reference behaviour: the default marker, and the depth spec/92_eei_decisions.md
names for it. DESIGN CHOICE for the depth (assumption log 1). -/
abbrev Params.reference : Params := ⟨defaultMarker, .infinite⟩

/-- `MODE` (R28): 0 ScaledInteger, 1 HexDigitConcatenation. -/
inductive Mode where
  | scaledInteger
  | hexDigitConcatenation
  deriving DecidableEq, Repr

/-- The three configuration bits, format CFG3 (R27, R79): the inputs, and their latched copy `CFG_L`. -/
structure Cfg where
  mode : Mode
  text : Bool
  resyncAlways : Bool
  deriving DecidableEq, Repr

/-- `CFG_L` = 000, its reset value (R41). -/
abbrev Cfg.zero : Cfg := ⟨.scaledInteger, false, false⟩

/-- `PHASE` (R34); the value 3 is unrepresentable (R88). -/
inductive Phase where
  | idle
  | stream
  | collect
  deriving DecidableEq, Repr

/-- `ERR` and `DONE.status` (R36, R200); the values 5 to 7 are unrepresentable (R88). -/
inductive Err where
  | ok
  | malformedInput
  | decodeFailure
  | bufferOverflow
  | badChar
  deriving DecidableEq, Repr

end Sys2Proof
end

