-- ==== Sys2Proof/Syntax.lean ====
section
/-! DEFINITION. The operations of the engine, one constructor per row of spec/opcode_table.json, and the
operand shapes they carry. -/

namespace Sys2Proof

/-- A candidate frame, format CAND (R74): 0 to 4 octets in the order received. It is also the frame
buffer `FB` with its length `LEN` (R22 to R24): positions beyond the length do not exist, and the
lengths 5 to 7 are unrepresentable (R88). -/
inductive Frame where
  | empty
  | one (f0 : Byte)
  | two (f0 f1 : Byte)
  | three (f0 f1 f2 : Byte)
  | four (f0 f1 f2 f3 : Byte)
  deriving DecidableEq, Repr

/-- The fields of a validated frame that are free in format FRAME32 (R73): bits 22:16, 15:8 and 7:0.
Its marker octet equals `M` and its bit `z` is 0. -/
structure ValidFrame where
  counter : BitVec 7
  hi : Byte
  lo : Byte
  deriving DecidableEq, Repr

/-- The 25 operations (R91 of spec/30_encoding.md). An operand that the selected encoding fixes
(the marker of `FR.SYNC`, the marker and bit `z` of a validated frame) is not carried; nor are the
ignored `data` bits of the two `END` operations (R70). -/
inductive Instr where
  /-- `ST.START`, R180: any event in IDLE; bit 8 and bits 7:0 of the event. -/
  | stStart (fin : Bool) (data : Byte)
  /-- `ST.DISCARD`, R184. -/
  | stDiscard (u : Byte)
  /-- `ST.END.S`, R183. -/
  | stEndS
  /-- `ST.END.C`, R189. -/
  | stEndC
  /-- `ST.DONE`, R186. -/
  | stDone
  /-- `SB.ST`, R65. -/
  | sbSt (u : Byte)
  /-- `SB.LD`, R66: the index read. -/
  | sbLd (i : Nat)
  /-- `HEX.VAL`, R100. -/
  | hexVal (c : Byte)
  /-- `HEX.PAIR`, R101. -/
  | hexPair (t : List Nibble)
  /-- `HEX.TRIM`, R102. -/
  | hexTrim (w : List Nibble)
  /-- `DET.B`, R110. -/
  | detB (b : Byte)
  /-- `DET.T`, R111: the character values at `i` and at `i + 1`; the second is absent when `i` is the
  last index. -/
  | detT (ti : Nibble) (ti1 : Option Nibble)
  /-- `RS.B`, R113. -/
  | rsB (s : List Byte)
  /-- `RS.T`, R116. -/
  | rsT (t : List Nibble)
  /-- `FR.SYNC`, R130: its octet is `M`. -/
  | frSync
  /-- `FR.CUT`, R131. -/
  | frCut (b : Byte)
  /-- `FR.APPEND`, R132. -/
  | frAppend (b : Byte)
  /-- `FR.FLUSH`, R133. -/
  | frFlush
  /-- `FR.CLOSE`, R134. -/
  | frClose
  /-- `VAL.ACCEPT`, R151. -/
  | valAccept (f : ValidFrame)
  /-- `VAL.REJECT`, R152. -/
  | valReject (f : Frame)
  /-- `UNP.ID`, R160. -/
  | unpId (f : ValidFrame)
  /-- `UNP.CNT`, R161. -/
  | unpCnt (f : ValidFrame)
  /-- `UNP.SCALED`, R163. -/
  | unpScaled (f : ValidFrame)
  /-- `UNP.HEXCAT`, R164. -/
  | unpHexcat (f : ValidFrame)
  deriving DecidableEq, Repr

end Sys2Proof
end

