-- ==== Sys2Proof/Machine/Operands.lean ====
section
/-! DEFINITION. Operand formats and field extraction: nibbles and octets, hex characters, candidate
frames, the fields of FRAME32, and the numeric codes of the closed enumerations
(spec/30_encoding.md, spec/20_memory.md R50 to R52). -/

namespace Sys2Proof.Machine

/-- Bits 7:4 of an octet. -/
def hiNibble (b : Byte) : Nibble := b.extractLsb' 4 4

/-- Bits 3:0 of an octet. -/
def loNibble (b : Byte) : Nibble := b.extractLsb' 0 4

/-- The octet of a pair of character values, the first in bits 7:4 (R51). -/
def octetOfPair (c0 c1 : Nibble) : Byte := c0 ++ c1

/-- `zext_8` of a character value (R13, R38). -/
def cellOfChar (v : Nibble) : Byte := v.setWidth 8

/-- `hv(c)`: the value of a hex character code, none when the code is no hex character (R72, R100).
ASCII codes: PRESUMED (assumption log 9). -/
def hexValue (c : Byte) : Option Nibble :=
  if 0x30#8 ≤ c ∧ c ≤ 0x39#8 then some ((c - 0x30#8).setWidth 4)
  else if 0x41#8 ≤ c ∧ c ≤ 0x46#8 then some ((c - 0x37#8).setWidth 4)
  else if 0x61#8 ≤ c ∧ c ≤ 0x66#8 then some ((c - 0x57#8).setWidth 4)
  else none

/-- `lc(v)`: the code of the lowercase hex digit of value `v` (R83). ASCII codes: PRESUMED (log 9). -/
def lowercaseDigit (v : Nibble) : Byte :=
  if v ≤ 9#4 then 0x30#8 + v.setWidth 8 else 0x57#8 + v.setWidth 8

/-- `len(f)`: the number of octets of a candidate frame (R23, R74). -/
def frameLen : Frame → Nat
  | .empty => 0
  | .one _ => 1
  | .two _ _ => 2
  | .three _ _ _ => 3
  | .four _ _ _ _ => 4

/-- The octets of a candidate frame, `[FB[0], ..., FB[LEN-1]]` (R74). -/
def frameOctets : Frame → List Byte
  | .empty => []
  | .one a => [a]
  | .two a b => [a, b]
  | .three a b c => [a, b, c]
  | .four a b c d => [a, b, c, d]

/-- `FB[LEN] <- b; LEN <- LEN + 1` (R132); none when `FB` has no cell left (R22). -/
def frameAppend : Frame → Byte → Option Frame
  | .empty, x => some (.one x)
  | .one a, x => some (.two a x)
  | .two a b, x => some (.three a b x)
  | .three a b c, x => some (.four a b c x)
  | .four _ _ _ _, _ => none

/-- The candidate frame of a list of at most 4 octets (R74). -/
def frameOfOctets : List Byte → Option Frame
  | [] => some .empty
  | [a] => some (.one a)
  | [a, b] => some (.two a b)
  | [a, b, c] => some (.three a b c)
  | [a, b, c, d] => some (.four a b c d)
  | _ => none

/-- The fields `counter`, `hi`, `lo` of a frame of 4 octets (R73, R80): `counter` = `f[1][6:0]`. -/
def frameFields : Frame → Option ValidFrame
  | .four _ b c d => some ⟨b.extractLsb' 0 7, c, d⟩
  | _ => none

/-- The four octets of a validated frame, marker first (R73). -/
def frameOfFields (marker : Byte) (f : ValidFrame) : Frame :=
  .four marker (f.counter.setWidth 8) f.hi f.lo

/-- `raw` = `{f[2], f[3]}`, big-endian (R50, R81). -/
def rawOf (hi lo : Byte) : BitVec 16 := hi ++ lo

/-- The code of `PHASE` (R34). -/
def phaseCode : Phase → BitVec 2
  | .idle => 0
  | .stream => 1
  | .collect => 2

/-- The code of `ERR` and of `DONE.status` (R200). -/
def errCode : Err → BitVec 3
  | .ok => 0
  | .malformedInput => 1
  | .decodeFailure => 2
  | .bufferOverflow => 3
  | .badChar => 4

/-- The bit of `MODE` (R28). -/
def modeBit : Mode → Bool
  | .scaledInteger => false
  | .hexDigitConcatenation => true

/-- The word of the event `UNIT(u)` (R70): bit 8 is 0. -/
def unitWord (u : Byte) : EventWord := 0#1 ++ u

/-- A word of the event `END` (R70): bit 8 is 1, and bits 7:0, which are ignored, hold `data`. -/
def endWord (data : Byte) : EventWord := 1#1 ++ data

/-- `s[a:b)`: elements `a` to `b - 1`, empty when `b <= a` (R11). -/
def slice {α : Type} (s : List α) (a b : Nat) : List α := (s.take b).drop a

/-- `sat_inc`: `v + 1` below the greatest value, else `v` (R35). -/
def satInc (v : Count) : Count := if v = BitVec.allOnes 32 then v else v + 1

end Sys2Proof.Machine
end

