-- ==== Sys2Proof/Machine/Flags.lean ====
section
/-! DEFINITION. The combinational conditions of R26 of spec/10_state.md: computed from registers and
the current input, never stored. -/

namespace Sys2Proof.Machine

/-- `is_sync(b)` = (`b == M`) (R110). -/
def isSync (marker b : Byte) : Bool := b == marker

/-- The marker's text pattern: `t[i] == M_hi` and `t[i+1] == M_lo` (R84, R111). An absent second
character is `i + 1 < len(t)` failing. -/
def isSyncText (marker : Byte) (ti : Nibble) (ti1 : Option Nibble) : Bool :=
  ti == hiNibble marker && ti1 == some (loNibble marker)

/-- `full` = (`LEN == 4`) (R26, R131). -/
def full (f : Frame) : Bool := frameLen f == frameWidth

/-- `len_ok` (R150). -/
def lenOk (f : Frame) : Bool := frameLen f == frameWidth

/-- `marker_ok` (R150): false for a frame that is not 4 octets long. -/
def markerOk (marker : Byte) : Frame → Bool
  | .four f0 _ _ _ => f0 == marker
  | _ => false

/-- `counter_ok` (R150): false for a frame that is not 4 octets long. -/
def counterOk : Frame → Bool
  | .four _ f1 _ _ => f1 ≤ counterMax
  | _ => false

/-- `valid(f)`: the conjunction of the three conditions (R150). -/
def valid (marker : Byte) (f : Frame) : Bool := lenOk f && markerOk marker f && counterOk f

/-- The validated frame of a candidate, none when it does not validate (R150, R151). -/
def validated (marker : Byte) (f : Frame) : Option ValidFrame :=
  if valid marker f then frameFields f else none

/-- `is_hex(c)`, by the three ranges of codes (R100). -/
def isHex (c : Byte) : Bool :=
  (0x30#8 ≤ c && c ≤ 0x39#8) || (0x41#8 ≤ c && c ≤ 0x46#8) || (0x61#8 ≤ c && c ≤ 0x66#8)

/-- `nondecimal`: some payload nibble is above 9 (R164, R165). -/
def nondecimal (hi lo : Byte) : Bool :=
  9#4 < hiNibble hi || 9#4 < loNibble hi || 9#4 < hiNibble lo || 9#4 < loNibble lo

end Sys2Proof.Machine
end

