-- ==== Sys2Proof/WellFormed.lean ====
section
/-! DEFINITION. Which operations are well formed: the operand conditions that their rows of
spec/opcode_table.json state (the `cond` key, as far as it speaks of operands alone). -/

namespace Sys2Proof

/-- The operand conditions of each operation, for the marker `M`:
`FR.CUT` and `FR.APPEND` take an octet that is not the marker (R131, R132), `HEX.PAIR` an even-length
sequence (R101), `VAL.REJECT` a candidate that does not validate (R152). -/
def WellFormed (marker : Byte) : Instr → Bool
  | .stStart _ _ => true
  | .stDiscard _ => true
  | .stEndS => true
  | .stEndC => true
  | .stDone => true
  | .sbSt _ => true
  | .sbLd _ => true
  | .hexVal _ => true
  | .hexPair t => t.length % 2 == 0
  | .hexTrim _ => true
  | .detB _ => true
  | .detT _ _ => true
  | .rsB _ => true
  | .rsT _ => true
  | .frSync => true
  | .frCut b => !Machine.isSync marker b
  | .frAppend b => !Machine.isSync marker b
  | .frFlush => true
  | .frClose => true
  | .valAccept _ => true
  | .valReject f => !Machine.valid marker f
  | .unpId _ => true
  | .unpCnt _ => true
  | .unpScaled _ => true
  | .unpHexcat _ => true

end Sys2Proof
end

