-- ==== Sys2Proof/Decode.lean ====
section
/-! DEFINITION. The operation map (R85 of spec/30_encoding.md, spec/opcode_table.json): a total decoder
from a word and what selects among the rows that share its bits, and the encoder. -/

namespace Sys2Proof

/-- What selects among the rows of the table beside the bits of the word (its `cond` key, R85):
an input event with `PHASE`, `ERR` and `full`; a candidate at a close; one of the three decodes of an
accepted frame; or one of the operand formats CHAR8, OCT8, CHAR8 x 2. -/
inductive Select where
  | event (phase : Phase) (err : Err) (isFull : Bool)
  | close
  | identifier
  | counter
  | pressure (mode : Mode)
  | char
  | octet
  | pair
  deriving DecidableEq, Repr

/-- Why a word is refused, by name. -/
inductive Reject where
  /-- The number of bits is not that of the format. -/
  | width
  /-- A bit above the format's width is set. -/
  | highBits
  /-- A word of format FRAME32 that is no validated frame, given to a decode (R167). -/
  | notValidated
  deriving DecidableEq, Repr

/-- A word with the number of its bits, numbered as spec/opcode_table.json numbers them. -/
structure Code where
  nbits : Nat
  word : Nat
  deriving DecidableEq, Repr

/-- The framer row for an octet (R85, R182): first match of `FR.SYNC`, `FR.CUT`, `FR.APPEND`. -/
def decodeOctet (marker : Byte) (isFull : Bool) (b : Byte) : Instr :=
  if Machine.isSync marker b then .frSync
  else if isFull then .frCut b
  else .frAppend b

/-- The row an input event selects (R85, first table): bit 8 is `end`, bits 7:0 are `data` (R70). -/
def decodeEvent (marker : Byte) (phase : Phase) (err : Err) (isFull : Bool) (w : EventWord) : Instr :=
  match phase with
  | .idle => .stStart w.msb (w.extractLsb' 0 8)
  | .stream => if w.msb then .stEndS else decodeOctet marker isFull (w.extractLsb' 0 8)
  | .collect =>
    if w.msb then .stEndC
    else if err = .ok then .sbSt (w.extractLsb' 0 8)
    else .stDiscard (w.extractLsb' 0 8)

/-- The row a candidate frame selects when it is closed (R85, second table). -/
def decodeCandidate (marker : Byte) (f : Frame) : Instr :=
  match Machine.validated marker f with
  | some v => .valAccept v
  | none => .valReject f

/-- The candidate of `n` octets in a word of `8 n` bits, `f[0]` in the most significant octet. For 4 octets
this is format FRAME32 (R73). For fewer, R74 gives a length and octets but no word: DESIGN CHOICE
(assumption log 17). -/
def candidateOfWord (nbits w : Nat) : Option Frame :=
  match nbits with
  | 0 => some .empty
  | 8 => some (.one (.ofNat 8 w))
  | 16 => some (.two (.ofNat 8 (w / 2 ^ 8)) (.ofNat 8 w))
  | 24 => some (.three (.ofNat 8 (w / 2 ^ 16)) (.ofNat 8 (w / 2 ^ 8)) (.ofNat 8 w))
  | 32 => some (.four (.ofNat 8 (w / 2 ^ 24)) (.ofNat 8 (w / 2 ^ 16)) (.ofNat 8 (w / 2 ^ 8)) (.ofNat 8 w))
  | _ => none

/-- The word of a candidate: FRAME32 for 4 octets (R73), and for fewer the model's own packing (DESIGN
CHOICE, assumption log 17). -/
def wordOfCandidate : Frame → Code
  | .empty => ⟨0, 0⟩
  | .one a => ⟨8, a.toNat⟩
  | .two a b => ⟨16, (a ++ b : BitVec 16).toNat⟩
  | .three a b c => ⟨24, (a ++ b ++ c : BitVec 24).toNat⟩
  | .four a b c d => ⟨32, (a ++ b ++ c ++ d : BitVec 32).toNat⟩

/-- The validated frame in a word of format FRAME32 (R73, R85). -/
def decodeFrame (marker : Byte) (nbits w : Nat) : Except Reject ValidFrame :=
  if nbits ≠ 32 then .error .width
  else if 2 ^ 32 ≤ w then .error .highBits
  else
    match (candidateOfWord nbits w).bind (Machine.validated marker) with
    | some v => .ok v
    | none => .error .notValidated

/-- The decoder: total on any word, refusing by name. -/
def decode (marker : Byte) (sel : Select) (nbits w : Nat) : Except Reject Instr :=
  match sel with
  | .event phase err isFull =>
    if nbits ≠ 9 then .error .width
    else if 2 ^ 9 ≤ w then .error .highBits
    else .ok (decodeEvent marker phase err isFull (.ofNat 9 w))
  | .close =>
    match candidateOfWord nbits w with
    | none => .error .width
    | some f => if 2 ^ nbits ≤ w then .error .highBits else .ok (decodeCandidate marker f)
  | .identifier => (decodeFrame marker nbits w).map .unpId
  | .counter => (decodeFrame marker nbits w).map .unpCnt
  | .pressure .scaledInteger => (decodeFrame marker nbits w).map .unpScaled
  | .pressure .hexDigitConcatenation => (decodeFrame marker nbits w).map .unpHexcat
  | .char =>
    if nbits ≠ 8 then .error .width else if 2 ^ 8 ≤ w then .error .highBits else .ok (.hexVal (.ofNat 8 w))
  | .octet =>
    if nbits ≠ 8 then .error .width else if 2 ^ 8 ≤ w then .error .highBits else .ok (.detB (.ofNat 8 w))
  | .pair =>
    if nbits ≠ 8 then .error .width
    else if 2 ^ 8 ≤ w then .error .highBits
    else .ok (.detT (.ofNat 4 (w / 16)) (some (.ofNat 4 w)))

/-- The word of an operation, from its row's encoding; none for the rows of format INTERNAL, which have
no encoding of their own, and for `DET.T` at the last index, which has no second character. The
ignored `data` bits of `END` are written as zeros. -/
def encode (marker : Byte) : Instr → Option Code
  | .stStart fin data => some ⟨9, (BitVec.ofBool fin ++ data : BitVec 9).toNat⟩
  | .stDiscard u => some ⟨9, u.toNat⟩
  | .stEndS => some ⟨9, 0x100⟩
  | .stEndC => some ⟨9, 0x100⟩
  | .stDone => none
  | .sbSt u => some ⟨9, u.toNat⟩
  | .sbLd _ => none
  | .hexVal c => some ⟨8, c.toNat⟩
  | .hexPair _ => none
  | .hexTrim _ => none
  | .detB b => some ⟨8, b.toNat⟩
  | .detT ti ti1 => ti1.map fun u => ⟨8, (ti ++ u : BitVec 8).toNat⟩
  | .rsB _ => none
  | .rsT _ => none
  | .frSync => some ⟨9, marker.toNat⟩
  | .frCut b => some ⟨9, b.toNat⟩
  | .frAppend b => some ⟨9, b.toNat⟩
  | .frFlush => none
  | .frClose => none
  | .valAccept f => some (wordOfCandidate (Machine.frameOfFields marker f))
  | .valReject f => some (wordOfCandidate f)
  | .unpId f => some (wordOfCandidate (Machine.frameOfFields marker f))
  | .unpCnt f => some (wordOfCandidate (Machine.frameOfFields marker f))
  | .unpScaled f => some (wordOfCandidate (Machine.frameOfFields marker f))
  | .unpHexcat f => some (wordOfCandidate (Machine.frameOfFields marker f))

/-- Whether `sel` is a selection under which the table gives the operation (its `cond` key, R85). The
condition on the octet (`data == M` or not) is in the encoding and in `WellFormed`. -/
def selects (sel : Select) (i : Instr) : Bool :=
  match i with
  | .stStart _ _ => match sel with | .event .idle _ _ => true | _ => false
  | .stDiscard _ => match sel with | .event .collect err _ => err != .ok | _ => false
  | .stEndS => match sel with | .event .stream _ _ => true | _ => false
  | .stEndC => match sel with | .event .collect _ _ => true | _ => false
  | .stDone => false
  | .sbSt _ => match sel with | .event .collect err _ => err == .ok | _ => false
  | .sbLd _ => false
  | .hexVal _ => sel == .char
  | .hexPair _ => false
  | .hexTrim _ => false
  | .detB _ => sel == .octet
  | .detT _ _ => sel == .pair
  | .rsB _ => false
  | .rsT _ => false
  | .frSync => match sel with | .event .stream _ _ => true | _ => false
  | .frCut _ => match sel with | .event .stream _ isFull => isFull | _ => false
  | .frAppend _ => match sel with | .event .stream _ isFull => !isFull | _ => false
  | .frFlush => false
  | .frClose => false
  | .valAccept _ => sel == .close
  | .valReject _ => sel == .close
  | .unpId _ => sel == .identifier
  | .unpCnt _ => sel == .counter
  | .unpScaled _ => sel == .pressure .scaledInteger
  | .unpHexcat _ => sel == .pressure .hexDigitConcatenation

/-- The selection under which a word of the table is decoded when nothing but its bits is given: format
IN9 on a stream of the cut-through path with the frame not full, format FRAME32 at a close, format
OCT8. DESIGN CHOICE (assumption log 7): the bits of a row alone select no operation of this engine. -/
def tableSelect (nbits : Nat) : Option (Select × Nat) :=
  match nbits with
  | 8 => some (.octet, 8)
  | 16 => some (.event .stream .ok false, 9)
  | 32 => some (.close, 32)
  | _ => none

/-- The operation the decoder reads from a word of the table, `nbits` its width in whole bytes, for the
default marker (the patterns of the table are written for it). -/
def decodeTableWord (nbits w : Nat) : Option Instr :=
  match tableSelect nbits with
  | none => none
  | some (sel, width) =>
    match decode defaultMarker sel width w with
    | .ok i => some i
    | .error _ => none

end Sys2Proof
end

