-- ==== Sys2Proof/Machine/State.lean ====
section
/-! DEFINITION. The engine's state, the reasons a step can stop, and the state after reset
(spec/10_state.md). -/

namespace Sys2Proof.Machine

/-- The stream buffer's cells that hold a value, addresses rising; an unlisted address holds none
(R38, R57, R233). Host.Cell is one (address, octet) pair. -/
abbrev Memory := List Host.Cell

/-- A sensor record, the fields of `REC` (R76). -/
structure SensorRecord where
  id : BitVec 16
  counter : BitVec 7
  centi : BitVec 16
  deriving DecidableEq, Repr

/-- The two output events (R76 to R78). -/
inductive OutEvent where
  | record (r : SensorRecord)
  | done (status : Err) (total accepted : Count)
  deriving DecidableEq, Repr

/-- What the sink's side sees, in order: an output event, or the reset input being asserted
(R231, R243; assumption log 3). -/
inductive TraceItem where
  | out (e : OutEvent)
  | resetAsserted
  deriving DecidableEq, Repr

/-- What the host does next: offers an input event while it presents the three configuration inputs
(R16, R27, R70), or drives the reset input (R230). -/
inductive HostAct where
  | event (pins : Cfg) (word : EventWord)
  | reset (asserted : Bool)
  deriving DecidableEq, Repr

/-- The result of a combinational operation that is run alone (assumption log 4). -/
inductive BusValue where
  /-- `HEX.VAL`: `hv(c)`, none when `is_hex(c)` is false. -/
  | hex (v : Option Nibble)
  /-- `DET.B`, `DET.T`. -/
  | sync (b : Bool)
  /-- `SB.LD`: the character value (text path) and the octet, as far as R66 defines them. -/
  | load (char : Option Nibble) (octet : Option Byte)
  /-- `HEX.PAIR`, `RS.B`. -/
  | octets (s : List Byte)
  /-- `HEX.TRIM`, `RS.T`. -/
  | chars (t : List Nibble)
  /-- `RS.T` with no occurrence. -/
  | noMarker
  /-- `UNP.ID`. -/
  | ident (id : BitVec 16)
  /-- `UNP.CNT`. -/
  | count (counter : BitVec 7)
  /-- `UNP.SCALED`, `UNP.HEXCAT`. -/
  | centi (v : BitVec 16)
  /-- `UNP.HEXCAT` on a payload that is no decimal literal (R165). -/
  | fail
  deriving DecidableEq, Repr

/-- The machine. Fields in the order of the table of spec/10_state.md after the parameters and inputs. -/
structure State where
  /-- `SYNC_MARKER` and `BUF_DEPTH` (R7, R8); never written. -/
  params : Params
  /-- The reset input (R230). -/
  rst : Bool
  /-- The configuration inputs as presented with the event last taken (R27). -/
  pins : Cfg
  /-- The MODEL's: what the host does next, oldest first. -/
  input : List HostAct
  /-- `PHASE` (R34). -/
  phase : Phase
  /-- `CFG_L` (R27 to R30). -/
  cfgL : Cfg
  /-- `FB` and `LEN` (R22 to R24). -/
  frame : Frame
  /-- `TOTAL` (R35). -/
  total : Count
  /-- `ACCEPTED` (R35). -/
  accepted : Count
  /-- `ERR` (R36). -/
  err : Err
  /-- `SB` and `COUNT` (R37, R38). -/
  sb : Memory
  /-- The MODEL's: the result of a combinational operation run alone. -/
  bus : Option BusValue
  /-- The MODEL's: what the sink's side has seen, oldest first. -/
  trace : List TraceItem
  deriving DecidableEq, Repr

/-- Why the machine stops with a fault. No step from a state that meets the invariant raises one. -/
inductive Fault where
  /-- `SB.LD` and `ST.END.C`: a read of a cell that holds no value (R64: MemRead is defined only below
  `COUNT`). Safe. -/
  | noValue
  /-- `SB.ST`: a write of a cell that does not exist (R64: MemWrite is defined only below `BUF_DEPTH`).
  Safe. -/
  | noSuchCell
  /-- `FR.APPEND`: `FB` has no fifth cell (R22, R132). Safe. -/
  | frameFull
  /-- `HEX.PAIR`: an odd-length sequence, which R101 gives no meaning. Safe. -/
  | oddLength
  deriving DecidableEq, Repr

/-- Why a step is refused. -/
inductive Refusal where
  /-- An operation that has no meaning yet. Safe. -/
  | notModelled (mnemonic : String)
  /-- An input event offered while reset is asserted (I15 of spec/93_implementation_defined.md). Safe. -/
  | eventInReset
  deriving DecidableEq, Repr

/-- The machine right after reset (R41, R230), with the reference parameters (assumption log 1), reset
released, and no event offered (log 2, log 6). -/
def State.reset : State where
  params := Params.reference
  rst := false
  pins := Cfg.zero
  input := []
  phase := .idle
  cfgL := Cfg.zero
  frame := .empty
  total := 0
  accepted := 0
  err := .ok
  sb := []
  bus := none
  trace := []

end Sys2Proof.Machine
end

