-- ==== Sys2Proof/Machine/Ops.lean ====
section
/-! DEFINITION. The named operations over registers, the stream buffer, the error register and the
ports, shared by the meanings. -/

namespace Sys2Proof.Machine

/-! ### The stream buffer (R57, R64 of spec/20_memory.md) -/

/-- The canonical form: addresses strictly rising. -/
def Memory.wf (m : Memory) : Bool := decide (m.Pairwise fun x y => x.1 < y.1)

/-- The cell at an address, none when it holds no value. -/
def Memory.read (m : Memory) (a : Nat) : Option Byte :=
  match m with
  | [] => none
  | (b, v) :: rest => if b = a then some v else Memory.read rest a

/-- `SB[a] <- v`, keeping addresses rising. -/
def Memory.write (m : Memory) (a : Nat) (v : Byte) : Memory :=
  match m with
  | [] => [(a, v)]
  | (b, w) :: rest =>
    if a < b then (a, v) :: (b, w) :: rest
    else if a = b then (a, v) :: rest
    else (b, w) :: Memory.write rest a v

/-- The cells that hold a value are those of the addresses 0 to `n - 1`, `n` the number of cells: what
R38 says of `SB` and `COUNT`. -/
def Memory.dense (m : Memory) : Bool := m.map Prod.fst == List.range m.length

/-- `COUNT` (R37): the number of cells held (R38). -/
def State.count (s : State) : Nat := s.sb.length

/-- `COUNT == BUF_DEPTH` (R65); never true when `BUF_DEPTH` is infinite. -/
def depthReached (d : BufDepth) (count : Nat) : Bool :=
  match d with
  | .cells n => count == (n : Nat)
  | .infinite => false

/-- `0 <= a < BUF_DEPTH` (R64). -/
def cellExists (d : BufDepth) (a : Nat) : Bool :=
  match d with
  | .cells n => decide (a < (n : Nat))
  | .infinite => true

/-- `MemRead(a, 1)` (R14, R64): defined only below `COUNT`. -/
def State.memRead (s : State) (a : Nat) : Option Byte :=
  if a < s.count then s.sb.read a else none

/-- `MemWrite(a, 1, v)` (R14, R64): defined only below `BUF_DEPTH`. -/
def State.memWrite (s : State) (a : Nat) (v : Byte) : Option State :=
  if cellExists s.params.bufDepth a then some { s with sb := s.sb.write a v } else none

/-- `SB.LD` of a character value (R66): bits 3:0 of the cell. -/
def State.loadChar (s : State) (i : Nat) : Option Nibble := (s.memRead i).map loNibble

/-- `SB.LD` of an octet (R66): the cell on the byte path, the pair at `i` and `i + 1` on the text path. -/
def State.loadOctet (s : State) (i : Nat) : Option Byte :=
  if s.cfgL.text then
    match s.loadChar i, s.loadChar (i + 1) with
    | some c0, some c1 => some (octetOfPair c0 c1)
    | _, _ => none
  else s.memRead i

/-- The values `f 0` to `f (n - 1)`, when all exist. -/
def gather {α : Type} (f : Nat → Option α) : Nat → Option (List α)
  | 0 => some []
  | n + 1 =>
    match gather f n, f n with
    | some xs, some x => some (xs ++ [x])
    | _, _ => none

/-- `buf` on the byte path (R189): every octet of the stream, by `SB.LD`. -/
def State.bufOctets (s : State) : Option (List Byte) := gather s.loadOctet s.count

/-- `buf` on the text path (R189): every character value of the stream, by `SB.LD`. -/
def State.bufChars (s : State) : Option (List Nibble) := gather s.loadChar s.count

/-! ### Errors and output -/

/-- `raise E` (R15, R209): the first error of the stream sticks; no control is transferred (R214). This
is the one shared operation that takes an exception. -/
def State.raise (s : State) (e : Err) : State := if s.err = .ok then { s with err := e } else s

/-- `emit` (R16): one output event, after those already emitted. -/
def State.emit (s : State) (e : OutEvent) : State := { s with trace := s.trace ++ [.out e] }

/-- The result of a combinational operation run alone (assumption log 4). -/
def State.deliver (s : State) (v : BusValue) : State := { s with bus := some v }

/-! ### Stream control and reset -/

/-- `(TEXT == 0 and RESYNC_ALWAYS == 0) ? STREAM : COLLECT` (R180, R181). -/
def pathOf (c : Cfg) : Phase := if c.text || c.resyncAlways then .collect else .stream

/-- The writes of `ST.START` (R180), before the event is handled. -/
def State.startStream (s : State) : State :=
  { s with
    cfgL := s.pins, frame := .empty, total := 0, accepted := 0, err := .ok, sb := [],
    phase := pathOf s.pins }

/-- `ST.DONE` (R186): report, then return to the reset values. `framed` says whether framing was
performed in this stream. This is also the one shared return from an error (R215). -/
def State.finish (s : State) (framed : Bool) : State :=
  let s := s.emit (if framed then .done s.err s.total s.accepted else .done s.err 0 0)
  { s with phase := .idle, frame := .empty, total := 0, accepted := 0, err := .ok, sb := [] }

/-- The reset input is asserted (R230, R231). -/
def State.assertReset (s : State) : State :=
  if s.rst then s else { s with rst := true, trace := s.trace ++ [.resetAsserted] }

/-- The reset input is released: the state of R41 (R230). -/
def State.releaseReset (s : State) : State :=
  if s.rst then
    { s with
      rst := false, phase := .idle, cfgL := Cfg.zero, frame := .empty, total := 0, accepted := 0,
      err := .ok, sb := [], bus := none }
  else s

/-! ### Taking an input event -/

/-- The event leaves the input port (R56); the configuration inputs carry the values presented with it
(R27); local values of the step before are gone (R40). -/
def State.takeEvent (s : State) (pins : Cfg) (rest : List HostAct) : State :=
  { s with pins := pins, input := rest, bus := none }

/-- What selects the operation of an event in this state (R85). -/
def State.select (s : State) : Select := .event s.phase s.err (full s.frame)

/-- The operation an event word selects in this state (R85). -/
def State.operation (s : State) (w : EventWord) : Instr :=
  decodeEvent s.params.marker s.phase s.err (full s.frame) w

/-- One outcome after another: a stop stays a stop. -/
def andThen (o : Host.Outcome State Fault Refusal) (f : State → Host.Outcome State Fault Refusal) :
    Host.Outcome State Fault Refusal :=
  match o with
  | .next s => f s
  | .fault r => .fault r
  | .refused r => .refused r

end Sys2Proof.Machine
end

