-- ==== Sys2Proof/Machine/Adapter.lean ====
section
/-! DEFINITION. The octet source adapter (spec/40_source_adapter.md): `HEX.VAL`, `HEX.PAIR`, `HEX.TRIM`. -/

namespace Sys2Proof.Machine

/-- `hex2oct(t)`: octet `k` is the pair at `2k` and `2k + 1`, the first character in bits 7:4 (R101). A
last character without a partner makes no octet; R101 is applied to even lengths only. -/
def hex2oct : List Nibble → List Byte
  | c0 :: c1 :: rest => octetOfPair c0 c1 :: hex2oct rest
  | _ => []

/-- `trim_even(w)`: the last character of an odd-length sequence is dropped (R102). -/
def trimEven (w : List Nibble) : List Nibble :=
  if w.length % 2 = 0 then w else slice w 0 (w.length - 1)

/-- `HEX.VAL` (R100): `is_hex(c)` and `hv(c)`. Writes no register; `BadChar` is raised by `SB.ST`. -/
def execHexVal (c : Byte) (s : State) : Host.Outcome State Fault Refusal :=
  .next (s.deliver (.hex (if isHex c then hexValue c else none)))

/-- `HEX.PAIR` (R101). An odd-length sequence has no meaning there. -/
def execHexPair (t : List Nibble) (s : State) : Host.Outcome State Fault Refusal :=
  if t.length % 2 = 0 then .next (s.deliver (.octets (hex2oct t))) else .fault .oddLength

/-- `HEX.TRIM` (R102). -/
def execHexTrim (w : List Nibble) (s : State) : Host.Outcome State Fault Refusal :=
  .next (s.deliver (.chars (trimEven w)))

end Sys2Proof.Machine
end

