-- ==== Sys2Proof/Machine/Unpacker.lean ====
section
/-! DEFINITION. The packet decoder (spec/44_unpacker.md): `UNP.ID`, `UNP.CNT`, `UNP.SCALED`, `UNP.HEXCAT`. -/

namespace Sys2Proof.Machine

/-- `id` = `{lc(M_hi), lc(M_lo)}` (R83, R160): depends on the marker only. -/
def unpackId (marker : Byte) : BitVec 16 :=
  lowercaseDigit (hiNibble marker) ++ lowercaseDigit (loNibble marker)

/-- `counter` = `f[1][6:0]` (R80, R161). -/
def unpackCounter (f : ValidFrame) : BitVec 7 := f.counter

/-- ScaledInteger: `centi` = `raw` (R163). -/
def unpackScaled (f : ValidFrame) : BitVec 16 := rawOf f.hi f.lo

/-- HexDigitConcatenation (R164): the four payload nibbles as decimal digits (R82); none is `Fail` (R165). -/
def unpackHexcat (f : ValidFrame) : Option (BitVec 16) :=
  if nondecimal f.hi f.lo then none
  else some (.ofNat 16
    (1000 * (hiNibble f.hi).toNat + 100 * (loNibble f.hi).toNat
      + 10 * (hiNibble f.lo).toNat + (loNibble f.lo).toNat))

/-- `centi` in the mode given (R166); none is `Fail`. -/
def unpackCenti (mode : Mode) (f : ValidFrame) : Option (BitVec 16) :=
  match mode with
  | .scaledInteger => some (unpackScaled f)
  | .hexDigitConcatenation => unpackHexcat f

/-- `unpack(mode, f)` (R167); none is `Fail`. -/
def unpack (marker : Byte) (mode : Mode) (f : ValidFrame) : Option SensorRecord :=
  (unpackCenti mode f).map fun centi => ⟨unpackId marker, unpackCounter f, centi⟩

/-- The pressure a record denotes: `centi / SCALE`, exactly (R76, R162, R171). The engine performs no
division; this is the number a reader of the record takes it for. -/
def pressure (r : SensorRecord) : ℚ := r.centi.toNat / scale

/-- `UNP.ID` (R160). -/
def execUnpId (_f : ValidFrame) (s : State) : Host.Outcome State Fault Refusal :=
  .next (s.deliver (.ident (unpackId s.params.marker)))

/-- `UNP.CNT` (R161). -/
def execUnpCnt (f : ValidFrame) (s : State) : Host.Outcome State Fault Refusal :=
  .next (s.deliver (.count (unpackCounter f)))

/-- `UNP.SCALED` (R163). -/
def execUnpScaled (f : ValidFrame) (s : State) : Host.Outcome State Fault Refusal :=
  .next (s.deliver (.centi (unpackScaled f)))

/-- `UNP.HEXCAT` (R164): a value or `Fail`; `DecodeFailure` is raised by `FR.CLOSE` (R165). -/
def execUnpHexcat (f : ValidFrame) (s : State) : Host.Outcome State Fault Refusal :=
  match unpackHexcat f with
  | some v => .next (s.deliver (.centi v))
  | none => .next (s.deliver .fail)

end Sys2Proof.Machine
end

