-- ==== Sys2Proof/Machine/Validator.lean ====
section
/-! DEFINITION. The frame validator (spec/43_validator.md): `VAL.ACCEPT`, `VAL.REJECT`. The predicate
`valid` is in Machine/Flags.lean. -/

namespace Sys2Proof.Machine

/-- The decoder on an accepted frame while `ERR == 0` (R134): a record, or `DecodeFailure`. -/
def State.decodeFrame (s : State) (f : ValidFrame) : State :=
  match unpack s.params.marker s.cfgL.mode f with
  | some r => s.emit (.record r)
  | none => s.raise .decodeFailure

/-- The effects of `VAL.ACCEPT` (R134, R151). -/
def State.acceptFrame (s : State) (f : ValidFrame) : State :=
  let s := { s with accepted := satInc s.accepted }
  if s.err = .ok then s.decodeFrame f else s

/-- `VAL.ACCEPT` (R151). -/
def execValAccept (f : ValidFrame) (s : State) : Host.Outcome State Fault Refusal :=
  .next (s.acceptFrame f)

/-- `VAL.REJECT` (R152): no effect of its own; `FR.CLOSE` counts the frame in `TOTAL`. -/
def execValReject (_f : Frame) (s : State) : Host.Outcome State Fault Refusal := .next s

end Sys2Proof.Machine
end

