-- ==== Sys2Proof/Machine/Framer.lean ====
section
/-! DEFINITION. The packet framer (spec/42_framer.md): `FR.SYNC`, `FR.CUT`, `FR.APPEND`, `FR.FLUSH`,
`FR.CLOSE`. -/

namespace Sys2Proof.Machine

/-- The writes of `FR.CLOSE` (R134). -/
def State.closeFrame (s : State) : State :=
  let t := { s with total := satInc s.total }
  match validated s.params.marker s.frame with
  | some f => { t.acceptFrame f with frame := .empty }
  | none => { t with frame := .empty }

/-- `FR.CLOSE` (R134). -/
def execFrClose (s : State) : Host.Outcome State Fault Refusal := .next s.closeFrame

/-- `FR.FLUSH` (R133): closes whatever is open, regardless of its length. -/
def execFrFlush (s : State) : Host.Outcome State Fault Refusal := .next s.closeFrame

/-- `FR.SYNC` (R130): its octet is `M`. -/
def execFrSync (s : State) : Host.Outcome State Fault Refusal :=
  .next { s.closeFrame with frame := .one s.params.marker }

/-- `FR.CUT` (R131). -/
def execFrCut (b : Byte) (s : State) : Host.Outcome State Fault Refusal :=
  .next { s.closeFrame with frame := .one b }

/-- `FR.APPEND` (R132): `FB[LEN] <- b; LEN <- LEN + 1`. There is no `FB[4]` to write (R22). -/
def execFrAppend (b : Byte) (s : State) : Host.Outcome State Fault Refusal :=
  match frameAppend s.frame b with
  | some f => .next { s with frame := f }
  | none => .fault .frameFull

/-- The framer takes one octet (R182): first match of `FR.SYNC`, `FR.CUT`, `FR.APPEND`. -/
def framerStep (b : Byte) (s : State) : Host.Outcome State Fault Refusal :=
  if isSync s.params.marker b then execFrSync s
  else if full s.frame then execFrCut b s
  else execFrAppend b s

/-- The replay of R189: the framer step on each octet, in order. -/
def replay : List Byte → State → Host.Outcome State Fault Refusal
  | [], s => .next s
  | b :: rest, s => andThen (framerStep b s) (replay rest)

end Sys2Proof.Machine
end

