-- ==== Sys2Proof/Machine/Resync.lean ====
section
/-! DEFINITION. The sync-marker detector and the stream resynchronizer (spec/41_resync.md): `DET.B`,
`DET.T`, `RS.B`, `RS.T`. -/

namespace Sys2Proof.Machine

/-- The least index below `n` with `p` (R112). -/
def least (p : Nat → Bool) : Nat → Option Nat
  | 0 => none
  | n + 1 =>
    match least p n with
    | some i => some i
    | none => if p n then some n else none

/-- The greatest index below `n` with `p` (R112). -/
def greatest (p : Nat → Bool) : Nat → Option Nat
  | 0 => none
  | n + 1 => if p n then some n else greatest p n

/-- `is_sync(s[i])`, false where `s[i]` does not exist (R110, R112). -/
def syncAt (marker : Byte) (s : List Byte) (i : Nat) : Bool :=
  match s[i]? with
  | some b => isSync marker b
  | none => false

/-- `occ_text(t, i)` (R111). -/
def occText (marker : Byte) (t : List Nibble) (i : Nat) : Bool :=
  match t[i]? with
  | some c => isSyncText marker c t[i + 1]?
  | none => false

/-- `first_b(s)`; none is `NoMarker` (R112). -/
def firstB (marker : Byte) (s : List Byte) : Option Nat := least (syncAt marker s) s.length

/-- `last_b(s)` (R112). -/
def lastB (marker : Byte) (s : List Byte) : Option Nat := greatest (syncAt marker s) s.length

/-- `first_t(t)` (R112). -/
def firstT (marker : Byte) (t : List Nibble) : Option Nat := least (occText marker t) t.length

/-- `last_t(t)` (R112). -/
def lastT (marker : Byte) (t : List Nibble) : Option Nat := greatest (occText marker t) t.length

/-- The right edge of the window (R113, R115, R116): `width` is one frame, `markerLen` the length of one
occurrence, both in units; the tail is measured exclusive of the marker (log 8). -/
def windowEnd (width markerLen n last : Nat) : Nat :=
  let tail := n - last - markerLen
  let lastAdj := if tail < width then last + width else last
  min lastAdj n

/-- `resync_bytes(s)` (R113); the empty window when there is no marker (R114). -/
def resyncBytes (marker : Byte) (s : List Byte) : List Byte :=
  match firstB marker s, lastB marker s with
  | some first, some last => slice s first (windowEnd frameWidth 1 s.length last)
  | _, _ => []

/-- `resync_text(t)` (R116); none is `NoMarker`. -/
def resyncText (marker : Byte) (t : List Nibble) : Option (List Nibble) :=
  match firstT marker t, lastT marker t with
  | some first, some last => some (slice t first (windowEnd textFrameWidth 2 t.length last))
  | _, _ => none

/-- `DET.B` (R110): the result is not stored in any register. -/
def execDetB (b : Byte) (s : State) : Host.Outcome State Fault Refusal :=
  .next (s.deliver (.sync (isSync s.params.marker b)))

/-- `DET.T` (R111). -/
def execDetT (ti : Nibble) (ti1 : Option Nibble) (s : State) : Host.Outcome State Fault Refusal :=
  .next (s.deliver (.sync (isSyncText s.params.marker ti ti1)))

/-- `RS.B` (R113). -/
def execRsB (octets : List Byte) (s : State) : Host.Outcome State Fault Refusal :=
  .next (s.deliver (.octets (resyncBytes s.params.marker octets)))

/-- `RS.T` (R116): a window or `NoMarker`; `MalformedInput` is raised by its caller. -/
def execRsT (t : List Nibble) (s : State) : Host.Outcome State Fault Refusal :=
  match resyncText s.params.marker t with
  | some w => .next (s.deliver (.chars w))
  | none => .next (s.deliver .noMarker)

end Sys2Proof.Machine
end

