-- ==== Sys2Proof/Machine/StreamBuffer.lean ====
section
/-! DEFINITION. The stream buffer operations (spec/20_memory.md section 9): `SB.ST`, `SB.LD`. -/

namespace Sys2Proof.Machine

/-- `MemWrite(COUNT, 1, v); COUNT <- COUNT + 1` (R65): writing the cell at `COUNT` makes it one more
cell held. -/
def State.storeUnit (s : State) (v : Byte) : Host.Outcome State Fault Refusal :=
  match s.memWrite s.count v with
  | some t => .next t
  | none => .fault .noSuchCell

/-- `SB.ST` (R65): the capacity test comes first (R210). -/
def execSbSt (u : Byte) (s : State) : Host.Outcome State Fault Refusal :=
  if depthReached s.params.bufDepth s.count then .next (s.raise .bufferOverflow)
  else if s.cfgL.text then
    match hexValue u with
    | some v => s.storeUnit (cellOfChar v)
    | none => .next (s.raise .badChar)
  else s.storeUnit u

/-- `SB.LD` (R66): on the byte path the octet at the index; on the text path the character value, and
the octet of the pair where the next cell holds a value too. -/
def execSbLd (i : Nat) (s : State) : Host.Outcome State Fault Refusal :=
  match s.memRead i with
  | none => .fault .noValue
  | some _ => .next (s.deliver (.load (if s.cfgL.text then s.loadChar i else none) (s.loadOctet i)))

end Sys2Proof.Machine
end

