-- ==== Sys2Proof/Machine/StreamControl.lean ====
section
/-! DEFINITION. Stream control (spec/45_stream_control.md): `ST.START`, `ST.DISCARD`, `ST.END.S`,
`ST.END.C`, `ST.DONE`. -/

namespace Sys2Proof.Machine

/-- `ST.DONE` (R186). Framing was performed in this stream exactly when some frame was closed, that is
when `TOTAL` is not 0 (R219; DEDUCED, assumption log 10). -/
def execStDone (s : State) : Host.Outcome State Fault Refusal := .next (s.finish (s.total != 0))

/-- `ST.END.S` (R183): `FR.FLUSH`, then `ST.DONE`. -/
def execStEndS (s : State) : Host.Outcome State Fault Refusal :=
  andThen (execFrFlush s) fun t => .next (t.finish true)

/-- The end of R189: replay the octets through the framer, `FR.FLUSH`, `ST.DONE`. -/
def State.frameAll (s : State) (octets : List Byte) : Host.Outcome State Fault Refusal :=
  andThen (replay octets s) execStEndS

/-- The byte path of R189; here `RESYNC_ALWAYS` is 1. -/
def State.endBytes (s : State) : Host.Outcome State Fault Refusal :=
  match s.bufOctets with
  | none => .fault .noValue
  | some buf => s.frameAll (resyncBytes s.params.marker buf)

/-- The text path of R189: odd length is repaired by `RS.T`, even length is converted as it stands and
resynchronized on octets when `RESYNC_ALWAYS` is 1. -/
def State.endText (s : State) : Host.Outcome State Fault Refusal :=
  match s.bufChars with
  | none => .fault .noValue
  | some buf =>
    if s.count % 2 = 1 then
      match resyncText s.params.marker buf with
      | none => .next ((s.raise .malformedInput).finish false)
      | some w => s.frameAll (hex2oct (trimEven w))
    else if s.cfgL.resyncAlways then s.frameAll (resyncBytes s.params.marker (hex2oct buf))
    else s.frameAll (hex2oct buf)

/-- `ST.END.C` (R189): after an error, no framing at all. -/
def execStEndC (s : State) : Host.Outcome State Fault Refusal :=
  if s.err ≠ .ok then .next (s.finish false)
  else if s.cfgL.text then s.endText
  else s.endBytes

/-- `ST.DISCARD` (R184): the unit is consumed and dropped. -/
def execStDiscard (_u : Byte) (s : State) : Host.Outcome State Fault Refusal := .next s

/-- An event in `PHASE` = STREAM (R182, R183). -/
def streamEvent (fin : Bool) (data : Byte) (s : State) : Host.Outcome State Fault Refusal :=
  if fin then execStEndS s else framerStep data s

/-- An event in `PHASE` = COLLECT (R184, R189). -/
def collectEvent (fin : Bool) (data : Byte) (s : State) : Host.Outcome State Fault Refusal :=
  if fin then execStEndC s
  else if s.err ≠ .ok then execStDiscard data s
  else execSbSt data s

/-- `ST.START` (R180): latch the configuration, clear, choose the path, then handle the same event by
the rule for the new `PHASE`, in the same step. -/
def execStStart (fin : Bool) (data : Byte) (s : State) : Host.Outcome State Fault Refusal :=
  let t := s.startStream
  match pathOf s.pins with
  | .collect => collectEvent fin data t
  | _ => streamEvent fin data t

end Sys2Proof.Machine
end

