-- ==== Sys2Proof/Machine/Dispatch.lean ====
section
/-! DEFINITION. One arm per operation. -/

namespace Sys2Proof.Machine

def exec (i : Instr) (s : State) : Host.Outcome State Fault Refusal :=
  match i with
  | .stStart fin data => Sys2Proof.Machine.execStStart fin data s
  | .stDiscard u => Sys2Proof.Machine.execStDiscard u s
  | .stEndS => Sys2Proof.Machine.execStEndS s
  | .stEndC => Sys2Proof.Machine.execStEndC s
  | .stDone => Sys2Proof.Machine.execStDone s
  | .sbSt u => Sys2Proof.Machine.execSbSt u s
  | .sbLd k => Sys2Proof.Machine.execSbLd k s
  | .hexVal c => Sys2Proof.Machine.execHexVal c s
  | .hexPair t => Sys2Proof.Machine.execHexPair t s
  | .hexTrim w => Sys2Proof.Machine.execHexTrim w s
  | .detB b => Sys2Proof.Machine.execDetB b s
  | .detT ti ti1 => Sys2Proof.Machine.execDetT ti ti1 s
  | .rsB octets => Sys2Proof.Machine.execRsB octets s
  | .rsT t => Sys2Proof.Machine.execRsT t s
  | .frSync => Sys2Proof.Machine.execFrSync s
  | .frCut b => Sys2Proof.Machine.execFrCut b s
  | .frAppend b => Sys2Proof.Machine.execFrAppend b s
  | .frFlush => Sys2Proof.Machine.execFrFlush s
  | .frClose => Sys2Proof.Machine.execFrClose s
  | .valAccept f => Sys2Proof.Machine.execValAccept f s
  | .valReject f => Sys2Proof.Machine.execValReject f s
  | .unpId f => Sys2Proof.Machine.execUnpId f s
  | .unpCnt f => Sys2Proof.Machine.execUnpCnt f s
  | .unpScaled f => Sys2Proof.Machine.execUnpScaled f s
  | .unpHexcat f => Sys2Proof.Machine.execUnpHexcat f s

end Sys2Proof.Machine
end

