-- ==== Sys2Proof/Machine/Step.lean ====
section
/-! DEFINITION. One step: the engine takes the next item of its input (R21, R180 to R189 of
spec/45_stream_control.md; reset, R230 of spec/70_reset_and_hazards.md). -/

namespace Sys2Proof.Machine

/-- One step. With nothing offered the engine waits (R222). An event is taken, the operation it selects
is decoded and executed; an event offered while reset is asserted is refused (I15). -/
def step (s : State) : Host.Outcome State Fault Refusal :=
  match s.input with
  | [] => .next s
  | .reset true :: rest => .next { s with input := rest }.assertReset
  | .reset false :: rest => .next { s with input := rest }.releaseReset
  | .event pins w :: rest =>
    if s.rst then .refused .eventInReset
    else exec ((s.takeEvent pins rest).operation w) (s.takeEvent pins rest)

/-- `s` with a word of the table placed so that the next step runs the operation `decodeTableWord` reads
from it (assumption log 7): a cut-through stream is in progress and reset is released. A word of
format IN9 (and of OCT8, whose octet the detector and the framer see) is offered as the next event,
with the frame made empty where it was full. A word of format FRAME32 is the open frame, and the
marker, which closes it, is the next event. -/
def State.withFetchWord (s : State) (nbits w : Nat) : State :=
  match nbits with
  | 32 =>
    { s with
      rst := false, phase := .stream, input := .event s.pins (s.params.marker.setWidth 9) :: s.input,
      frame := (candidateOfWord 32 w).getD s.frame }
  | 8 =>
    { s with
      rst := false, phase := .stream, input := .event s.pins (.ofNat 9 (w % 256)) :: s.input,
      frame := if full s.frame then .empty else s.frame }
  | _ =>
    { s with
      rst := false, phase := .stream, input := .event s.pins (.ofNat 9 w) :: s.input,
      frame := if full s.frame then .empty else s.frame }

end Sys2Proof.Machine
end

