-- ==== Sys2Proof/Machine/Pipeline.lean ====
section
/-! DEFINITION. The engine as functions: `frame(s)` (R137 of spec/42_framer.md), `adapter(t)` (R103) and
`decode(cfg, input)` (R192 of spec/45_stream_control.md), the reference the steps are held against (R193). -/

namespace Sys2Proof.Machine

/-- The loop of R137, on octet lists: `cur` is the open frame. -/
def frameLoop (marker : Byte) (cur : List Byte) : List Byte → List (List Byte)
  | [] => [cur]
  | b :: rest =>
    if b = marker ∨ cur.length = frameWidth then cur :: frameLoop marker [b] rest
    else frameLoop marker (cur ++ [b]) rest

/-- `frame(s)` (R137): the candidate frames of an octet sequence, in the order closed. -/
def frames (marker : Byte) (s : List Byte) : List (List Byte) := frameLoop marker [] s

/-- The validated frame of a candidate given as octets (R150). -/
def validFrame (marker : Byte) (f : List Byte) : Option ValidFrame :=
  (frameOfOctets f).bind (validated marker)

/-- `adapter(t)` (R103); none is `MalformedInput`. -/
def adapter (marker : Byte) (t : List Nibble) : Option (List Byte) :=
  if t.length % 2 = 0 then some (hex2oct t)
  else (resyncText marker t).map fun w => hex2oct (trimEven w)

/-- The result of one stream (R192). -/
structure Result where
  recs : List SensorRecord
  status : Err
  total : Count
  accepted : Count
  deriving DecidableEq, Repr

/-- `min(n, 2^32 - 1)` in 32 bits (R192, R219). -/
def saturate (n : Nat) : Count := .ofNat 32 (min n (2 ^ 32 - 1))

/-- The last loop of R192: records up to the first `Fail`, and the status. -/
def unpackAll (marker : Byte) (mode : Mode) : List ValidFrame → List SensorRecord × Err
  | [] => ([], .ok)
  | f :: rest =>
    match unpack marker mode f with
    | none => ([], .decodeFailure)
    | some r => (r :: (unpackAll marker mode rest).1, (unpackAll marker mode rest).2)

/-- Frame, validate, decode (the last part of R192). -/
def decodeOctets (marker : Byte) (mode : Mode) (s : List Byte) : Result :=
  let cands := frames marker s
  let vals := cands.filterMap (validFrame marker)
  let out := unpackAll marker mode vals
  ⟨out.1, out.2, saturate cands.length, saturate vals.length⟩

/-- A stream that fails before framing. -/
def failedResult (e : Err) : Result := ⟨[], e, 0, 0⟩

/-- The first collection error of R192, at the least index: the unit is over capacity, or is no hex
character on the text path. `k` is the index of the first unit of the list. -/
def collectionError (d : BufDepth) (text : Bool) (k : Nat) : List Byte → Option Err
  | [] => none
  | u :: rest =>
    if !cellExists d k then some .bufferOverflow
    else if text && !isHex u then some .badChar
    else collectionError d text (k + 1) rest

/-- The octet sequence to frame (the middle part of R192); none is `MalformedInput`. -/
def octetsToFrame (marker : Byte) (cfg : Cfg) (input : List Byte) : Option (List Byte) :=
  if cfg.text then
    let t := input.filterMap hexValue
    if t.length % 2 = 0 ∧ cfg.resyncAlways = true then (adapter marker t).map (resyncBytes marker)
    else adapter marker t
  else some (if cfg.resyncAlways then resyncBytes marker input else input)

/-- `decode(cfg, input)` (R192). -/
def decodeStream (p : Params) (cfg : Cfg) (input : List Byte) : Result :=
  match (if cfg.text || cfg.resyncAlways then collectionError p.bufDepth cfg.text 0 input else none) with
  | some e => failedResult e
  | none =>
    match octetsToFrame p.marker cfg input with
    | none => failedResult .malformedInput
    | some s => decodeOctets p.marker cfg.mode s

/-- The output events of a result: its records, then `DONE` (R190). -/
def Result.events (r : Result) : List OutEvent :=
  r.recs.map .record ++ [.done r.status r.total r.accepted]

end Sys2Proof.Machine
end

