-- ==== Sys2Proof/Safety.lean ====
section
/-! DEFINITION. What a safe run is, in the terms the statements use: the invariant of the engine between
two steps, a step that raises no fault, and the sink's duty on batches. -/

namespace Sys2Proof.Machine

/-- `COUNT <= BUF_DEPTH` (R37). -/
def withinDepth (d : BufDepth) (count : Nat) : Prop :=
  match d with
  | .cells n => count ≤ (n : Nat)
  | .infinite => True

/-- The invariant that holds between any two steps. -/
structure State.Inv (s : State) : Prop where
  /-- `SB` holds values exactly at the addresses 0 to `COUNT - 1` (R38). -/
  dense : s.sb.dense = true
  /-- `COUNT <= BUF_DEPTH` (R37). -/
  capacity : withinDepth s.params.bufDepth s.count
  /-- On the text path bits 7:4 of every cell are zero (R38). -/
  charCells : s.cfgL.text = true → ∀ c ∈ s.sb, hiNibble c.2 = 0
  /-- `ACCEPTED <= TOTAL` (R35). -/
  counted : s.accepted ≤ s.total
  /-- Only position 0 of the frame buffer can hold the marker (R135 (b)). -/
  markers : ∀ b ∈ (frameOctets s.frame).tail, b ≠ s.params.marker
  /-- Between streams every register has its reset value (R39, R232). -/
  idle : s.phase = .idle →
    s.frame = .empty ∧ s.total = 0 ∧ s.accepted = 0 ∧ s.err = .ok ∧ s.sb = []
  /-- On the cut-through path nothing is buffered (R181), the frame is open (R135 (a)), and the only
  error is `DecodeFailure` (R182, R203). -/
  stream : s.phase = .stream →
    s.cfgL.text = false ∧ s.cfgL.resyncAlways = false ∧ s.sb = [] ∧ s.frame ≠ .empty ∧
      (s.err = .ok ∨ (s.err = .decodeFailure ∧ s.cfgL.mode = .hexDigitConcatenation))
  /-- On a store-and-forward path nothing is framed before `END` (R181), and the only errors are those
  of `SB.ST` (R184, R205, R206). -/
  collect : s.phase = .collect →
    (s.cfgL.text = true ∨ s.cfgL.resyncAlways = true) ∧ s.frame = .empty ∧ s.total = 0 ∧
      s.accepted = 0 ∧
      (s.err = .ok ∨ (s.err = .bufferOverflow ∧ depthReached s.params.bufDepth s.count = true) ∨
        (s.err = .badChar ∧ s.cfgL.text = true))

/-- A step that raises no fault. -/
def State.Safe (s : State) : Prop := ∀ r : Fault, step s ≠ .fault r

/-- The trace of a list of records (R59). -/
def recordItems (recs : List SensorRecord) : List TraceItem := recs.map fun r => .out (.record r)

/-- What the sink holds (R243): the records of the batch that is not finished yet, and those committed. -/
structure Sink where
  pending : List SensorRecord
  committed : List SensorRecord
  deriving DecidableEq, Repr

/-- The sink's duty (R213, R231, R243): commit a batch when its `DONE` has status 0, discard it when the
status is another or when a reset comes first. -/
def Sink.take (k : Sink) : TraceItem → Sink
  | .out (.record r) => { k with pending := k.pending ++ [r] }
  | .out (.done status _ _) => ⟨[], if status = .ok then k.committed ++ k.pending else k.committed⟩
  | .resetAsserted => { k with pending := [] }

/-- The sink after a trace. -/
def sinkAfter (trace : List TraceItem) : Sink := trace.foldl Sink.take ⟨[], []⟩

/-- The acts of the host for one stream: its units, then `END`, each with the configuration inputs
presented at that moment (R18, R180). -/
def streamActs (units : List (Cfg × Byte)) (last : Cfg × Byte) : List HostAct :=
  units.map (fun u => .event u.1 (unitWord u.2)) ++ [.event last.1 (endWord last.2)]

/-- The configuration of a stream: the inputs presented with its first event (R27). -/
def streamCfg (units : List (Cfg × Byte)) (last : Cfg × Byte) : Cfg :=
  match units with
  | [] => last.1
  | u :: _ => u.1

end Sys2Proof.Machine
end

