-- ==== Sys2Proof/Certificates/Slice0/Obligations.lean ====
section
/-! DEFINITION. The statements for the provers. Each docstring names the rule of spec/ it formalises. -/

open Sys2Proof Sys2Proof.Machine

/-! ### Octet source adapter -/

/-- R100: the value of a hex character, by the three code ranges; no other code has one. Only the
result changes. (The code values themselves are the spec's general knowledge, assumption log 9.) -/
def Obligations.HexValGivesDigitValue : Prop :=
  ∀ (c : Byte) (s : State),
    exec (.hexVal c) s = .next { s with bus := some (.hex (
      if 0x30 ≤ c.toNat ∧ c.toNat ≤ 0x39 then some (.ofNat 4 (c.toNat - 0x30))
      else if 0x41 ≤ c.toNat ∧ c.toNat ≤ 0x46 then some (.ofNat 4 (c.toNat - 0x37))
      else if 0x61 ≤ c.toNat ∧ c.toNat ≤ 0x66 then some (.ofNat 4 (c.toNat - 0x57))
      else none)) }

/-- R101: octet `k` of an even-length text is `t[2k] * 16 + t[2k+1]`, and there are `len(t) / 2` octets. -/
def Obligations.HexPairConvertsPairs : Prop :=
  ∀ (t : List Nibble) (s : State), t.length % 2 = 0 →
    ∃ octets : List Byte,
      exec (.hexPair t) s = .next { s with bus := some (.octets octets) } ∧
      octets.length = t.length / 2 ∧
      ∀ (k : Nat) (c0 c1 : Nibble), t[2 * k]? = some c0 → t[2 * k + 1]? = some c1 →
        ∃ b : Byte, octets[k]? = some b ∧ b.toNat = c0.toNat * 16 + c1.toNat

/-- R102: an odd-length sequence loses its last character, an even-length one nothing. -/
def Obligations.HexTrimDropsOddLast : Prop :=
  ∀ (w : List Nibble) (s : State),
    exec (.hexTrim w) s =
      .next { s with bus := some (.chars (if w.length % 2 = 0 then w else w.dropLast)) }

/-! ### Detector and resynchronizer -/

/-- R110: `DET.B` is the full 8-bit equality with the marker, and stores it in no register. -/
def Obligations.DetBComparesWithMarker : Prop :=
  ∀ (b : Byte) (s : State), ∃ r : Bool,
    exec (.detB b) s = .next { s with bus := some (.sync r) } ∧ (r = true ↔ b = s.params.marker)

/-- R111: `DET.T` at an index of a text holds exactly when the next index exists and the two characters
are the two nibbles of the marker. -/
def Obligations.DetTComparesPairWithMarker : Prop :=
  ∀ (t : List Nibble) (i : Nat) (c : Nibble) (s : State), t[i]? = some c → ∃ r : Bool,
    exec (.detT c t[i + 1]?) s = .next { s with bus := some (.sync r) } ∧
    (r = true ↔ i + 1 < t.length ∧ c.toNat = s.params.marker.toNat / 16 ∧
      ∃ d : Nibble, t[i + 1]? = some d ∧ d.toNat = s.params.marker.toNat % 16)

/-- R113, R114: the window of the byte form, from the first marker to the last, with the one-frame
allowance when fewer than 4 octets follow the last; empty when there is no marker. -/
def Obligations.RsBGivesWindow : Prop :=
  ∀ (octets : List Byte) (s : State), ∃ w : List Byte,
    exec (.rsB octets) s = .next { s with bus := some (.octets w) } ∧
    (s.params.marker ∉ octets → w = []) ∧
    ∀ first last : Nat,
      octets[first]? = some s.params.marker → (∀ i < first, octets[i]? ≠ some s.params.marker) →
      octets[last]? = some s.params.marker → (∀ i > last, octets[i]? ≠ some s.params.marker) →
      w = (octets.take (min (if octets.length - last - 1 < 4 then last + 4 else last)
        octets.length)).drop first

/-- R116: the window of the text form, the same with 8 characters and a two-character marker;
`NoMarker` when no index holds an occurrence. -/
def Obligations.RsTGivesWindow : Prop :=
  ∀ (t : List Nibble) (s : State),
    ((∀ i, occText s.params.marker t i = false) →
      exec (.rsT t) s = .next { s with bus := some .noMarker }) ∧
    ∀ first last : Nat,
      occText s.params.marker t first = true → (∀ i < first, occText s.params.marker t i = false) →
      occText s.params.marker t last = true → (∀ i > last, occText s.params.marker t i = false) →
      exec (.rsT t) s = .next { s with bus := some (.chars ((t.take
        (min (if t.length - last - 2 < 8 then last + 8 else last) t.length)).drop first)) }

/-- R119: a concatenation of whole frames that each start with the marker is its own window, in both
forms. -/
def Obligations.ResyncKeepsCleanStreams : Prop :=
  ∀ (marker : Byte) (fs : List (Byte × Byte × Byte)),
    resyncBytes marker (fs.flatMap fun f => [marker, f.1, f.2.1, f.2.2]) =
      (fs.flatMap fun f => [marker, f.1, f.2.1, f.2.2]) ∧
    (fs ≠ [] →
      resyncText marker (fs.flatMap fun f => [marker, f.1, f.2.1, f.2.2].flatMap fun b =>
        [hiNibble b, loNibble b]) =
      some (fs.flatMap fun f => [marker, f.1, f.2.1, f.2.2].flatMap fun b =>
        [hiNibble b, loNibble b]))

/-- R120 (e), R116: the window is a contiguous part of the stream. Unless empty, a byte window starts with
the marker. A text window holds the two characters of the marker at its start, as far as it is that
long, so that the octets made of it, if any, start with the marker. -/
def Obligations.WindowIsPartStartingAtMarker : Prop :=
  ∀ (marker : Byte) (octets : List Byte) (t w : List Nibble),
    (resyncBytes marker octets <:+: octets ∧
      (resyncBytes marker octets = [] ∨ (resyncBytes marker octets).head? = some marker)) ∧
    (resyncText marker t = some w →
      w <:+: t ∧ w.take 2 = [hiNibble marker, loNibble marker].take w.length ∧
      (hex2oct (trimEven w) = [] ∨ (hex2oct (trimEven w)).head? = some marker))

/-! ### Framer -/

/-- R134: `FR.CLOSE` counts every frame (saturating); an accepted frame is counted again and, while
`ERR` is 0, gives one record or raises `DecodeFailure`; the frame is empty afterwards; nothing else
changes. -/
def Obligations.FrCloseCountsValidatesDecodes : Prop :=
  ∀ s : State,
    ((∀ b c d, s.frame = .four s.params.marker b c d → 0x7F < b.toNat) →
      exec .frClose s = .next { s with
        total := .ofNat 32 (min (s.total.toNat + 1) (2 ^ 32 - 1)), frame := .empty }) ∧
    ∀ b c d, s.frame = .four s.params.marker b c d → b.toNat ≤ 0x7F →
      (s.err ≠ .ok →
        exec .frClose s = .next { s with
          total := .ofNat 32 (min (s.total.toNat + 1) (2 ^ 32 - 1)),
          accepted := .ofNat 32 (min (s.accepted.toNat + 1) (2 ^ 32 - 1)), frame := .empty }) ∧
      (s.err = .ok → ∀ r, unpack s.params.marker s.cfgL.mode ⟨b.extractLsb' 0 7, c, d⟩ = some r →
        exec .frClose s = .next { s with
          total := .ofNat 32 (min (s.total.toNat + 1) (2 ^ 32 - 1)),
          accepted := .ofNat 32 (min (s.accepted.toNat + 1) (2 ^ 32 - 1)), frame := .empty,
          trace := s.trace ++ [.out (.record r)] }) ∧
      (s.err = .ok → unpack s.params.marker s.cfgL.mode ⟨b.extractLsb' 0 7, c, d⟩ = none →
        exec .frClose s = .next { s with
          total := .ofNat 32 (min (s.total.toNat + 1) (2 ^ 32 - 1)),
          accepted := .ofNat 32 (min (s.accepted.toNat + 1) (2 ^ 32 - 1)), frame := .empty,
          err := .decodeFailure })

/-- R130, R131, R133: `FR.SYNC`, `FR.CUT` and `FR.FLUSH` close the open frame, whatever its length, once;
the first two then open a frame that holds the octet. -/
def Obligations.CutsCloseThenOpen : Prop :=
  ∀ (b : Byte) (s : State), ∃ c : State,
    exec .frClose s = .next c ∧ c.frame = .empty ∧
    exec .frSync s = .next { c with frame := .one s.params.marker } ∧
    exec (.frCut b) s = .next { c with frame := .one b } ∧
    exec .frFlush s = .next c

/-- R132: `FR.APPEND` on a frame of fewer than 4 octets adds the octet at its end and closes nothing. -/
def Obligations.FrAppendAddsOctet : Prop :=
  ∀ (b : Byte) (s : State), frameLen s.frame < 4 → ∃ f : Frame,
    exec (.frAppend b) s = .next { s with frame := f } ∧
    frameOctets f = frameOctets s.frame ++ [b] ∧ frameLen f = frameLen s.frame + 1

/-- R35, R134, R136: what the framer and validator operations leave alone, and that they emit at most
one event, a record. None of them stores to `SB`. -/
def Obligations.FramerOperationsFrame : Prop :=
  ∀ (i : Instr) (s t : State),
    (i = .frSync ∨ (∃ b, i = .frCut b) ∨ (∃ b, i = .frAppend b) ∨ i = .frFlush ∨ i = .frClose ∨
      (∃ f, i = .valAccept f) ∨ (∃ f, i = .valReject f)) →
    exec i s = .next t →
    t.params = s.params ∧ t.rst = s.rst ∧ t.pins = s.pins ∧ t.input = s.input ∧ t.phase = s.phase ∧
    t.cfgL = s.cfgL ∧ t.bus = s.bus ∧ t.count = s.count ∧ (∀ a, t.sb.read a = s.sb.read a) ∧
    (t.err = s.err ∨ (s.err = .ok ∧ t.err = .decodeFailure)) ∧
    (t.trace = s.trace ∨ ∃ r, s.err = .ok ∧ t.trace = s.trace ++ [.out (.record r)])

/-- R135 (c), R137, R138: `frame(s)` neither drops, repeats nor reorders an octet; every candidate has
at most 4 octets; an empty one can only be the first, and is exactly when the sequence is empty or
starts with the marker. -/
def Obligations.FramesPartitionTheOctets : Prop :=
  ∀ (marker : Byte) (s : List Byte),
    (frames marker s).flatten = s ∧ (∀ f ∈ frames marker s, f.length ≤ 4) ∧
    [] ∉ (frames marker s).tail ∧
    ((frames marker s).head? = some [] ↔ s = [] ∨ s.head? = some marker)

/-- R139: a concatenation of N frames whose counters are in range and whose octets after the marker
differ from the marker frames to the empty frame and exactly those N frames, all accepted. -/
def Obligations.RoundTripFraming : Prop :=
  ∀ (marker : Byte) (fs : List ValidFrame),
    (∀ f ∈ fs, f.counter.setWidth 8 ≠ marker ∧ f.hi ≠ marker ∧ f.lo ≠ marker) → fs ≠ [] →
    frames marker (fs.flatMap fun f => frameOctets (frameOfFields marker f)) =
      [] :: fs.map (fun f => frameOctets (frameOfFields marker f)) ∧
    (frames marker (fs.flatMap fun f => frameOctets (frameOfFields marker f))).filterMap
      (validFrame marker) = fs

/-- R140: there are at most as many accepted frames as markers, so a sequence without a marker gives no
record and no error. -/
def Obligations.AcceptedFramesNeedMarkers : Prop :=
  ∀ (marker : Byte) (mode : Mode) (s : List Byte),
    ((frames marker s).filterMap (validFrame marker)).length ≤ s.count marker ∧
    (marker ∉ s → (decodeOctets marker mode s).recs = [] ∧ (decodeOctets marker mode s).status = .ok)

/-- R238, R247: a packet whose counter, `hi` or `lo` octet is the marker gives no record and no error.
In any stream the framer cuts at every marker, so no record ever carries the marker in one of these
octets; a marker of at least 0x80 is never a counter. -/
def Obligations.PayloadMarkerLosesPacket : Prop :=
  ∀ (marker : Byte) (mode : Mode),
    (∀ c hi lo : Byte, c = marker ∨ hi = marker ∨ lo = marker →
      decodeOctets marker mode [marker, c, hi, lo] =
        ⟨[], .ok, .ofNat 32 (1 + [marker, c, hi, lo].count marker), 0⟩) ∧
    (∀ before after : List Byte, frames marker (before ++ marker :: after) =
      frames marker before ++ (frames marker (marker :: after)).tail) ∧
    (∀ (s : List Byte) (r : SensorRecord), r ∈ (decodeOctets marker mode s).recs →
      r.counter.toNat ≠ marker.toNat ∧
      (mode = .scaledInteger → r.centi.toNat / 256 ≠ marker.toNat ∧ r.centi.toNat % 256 ≠ marker.toNat)) ∧
    (0x80 ≤ marker.toNat → ∀ k : BitVec 7, k.toNat ≠ marker.toNat)

/-! ### Validator -/

/-- R150: a candidate is accepted exactly when it has 4 octets, the first is the marker and the second
is at most 0x7F; the operation selected at a close is then `VAL.ACCEPT` of its fields, and otherwise
`VAL.REJECT`. -/
def Obligations.CloseSelectsValidatorRow : Prop :=
  ∀ (marker : Byte) (f : Frame),
    (∀ b c d, f = .four marker b c d → b.toNat ≤ 0x7F →
      decodeCandidate marker f = .valAccept ⟨b.extractLsb' 0 7, c, d⟩) ∧
    ((∀ b c d, f = .four marker b c d → 0x7F < b.toNat) → decodeCandidate marker f = .valReject f)

/-- R151: `VAL.ACCEPT` counts the frame and, while `ERR` is 0, emits its record or raises
`DecodeFailure`; nothing else changes. -/
def Obligations.ValAcceptCountsAndDecodes : Prop :=
  ∀ (f : ValidFrame) (s : State),
    (s.err ≠ .ok → exec (.valAccept f) s = .next { s with
      accepted := .ofNat 32 (min (s.accepted.toNat + 1) (2 ^ 32 - 1)) }) ∧
    (s.err = .ok → ∀ r, unpack s.params.marker s.cfgL.mode f = some r →
      exec (.valAccept f) s = .next { s with
        accepted := .ofNat 32 (min (s.accepted.toNat + 1) (2 ^ 32 - 1)),
        trace := s.trace ++ [.out (.record r)] }) ∧
    (s.err = .ok → unpack s.params.marker s.cfgL.mode f = none →
      exec (.valAccept f) s = .next { s with
        accepted := .ofNat 32 (min (s.accepted.toNat + 1) (2 ^ 32 - 1)), err := .decodeFailure })

/-- R152: `VAL.REJECT` has no effect of its own; the close that runs it only counts the frame. -/
def Obligations.ValRejectIsSilent : Prop :=
  ∀ (f : Frame) (s : State),
    exec (.valReject f) s = .next s ∧
    (s.frame = f → valid s.params.marker f = false → exec .frClose s = .next { s with
      total := .ofNat 32 (min (s.total.toNat + 1) (2 ^ 32 - 1)), frame := .empty })

/-! ### Decoder -/

/-- R83, R160: the identifier is the two-character lowercase hexadecimal text of the marker, whatever
the frame; 0x3830 for the marker 0x80. -/
def Obligations.UnpIdIsMarkerText : Prop :=
  ∀ (f : ValidFrame) (s : State), ∃ ident : BitVec 16,
    exec (.unpId f) s = .next { s with bus := some (.ident ident) } ∧
    ident.toNat =
      256 * (if s.params.marker.toNat / 16 ≤ 9 then 0x30 + s.params.marker.toNat / 16
        else 0x57 + s.params.marker.toNat / 16)
      + (if s.params.marker.toNat % 16 ≤ 9 then 0x30 + s.params.marker.toNat % 16
        else 0x57 + s.params.marker.toNat % 16) ∧
    (s.params.marker = 0x80 → ident = 0x3830)

/-- R80, R161: the counter of a frame that validates is the integer value of its second octet. -/
def Obligations.UnpCntIsSecondOctet : Prop :=
  ∀ (f0 f1 f2 f3 : Byte) (v : ValidFrame) (s : State),
    validated s.params.marker (.four f0 f1 f2 f3) = some v → ∃ k : BitVec 7,
    exec (.unpCnt v) s = .next { s with bus := some (.count k) } ∧ k.toNat = f1.toNat

/-- R50, R163: ScaledInteger is the big-endian integer of the third and fourth octets. -/
def Obligations.UnpScaledIsBigEndian : Prop :=
  ∀ (f0 f1 f2 f3 : Byte) (v : ValidFrame) (s : State),
    validated s.params.marker (.four f0 f1 f2 f3) = some v → ∃ c : BitVec 16,
    exec (.unpScaled v) s = .next { s with bus := some (.centi c) } ∧
    c.toNat = f2.toNat * 256 + f3.toNat

/-- R164, R165: HexDigitConcatenation reads the four payload nibbles as decimal digits, and fails
exactly when one of them is above 9. -/
def Obligations.UnpHexcatReadsDecimalDigits : Prop :=
  ∀ (f0 f1 f2 f3 : Byte) (v : ValidFrame) (s : State),
    validated s.params.marker (.four f0 f1 f2 f3) = some v →
    ((f2.toNat / 16 ≤ 9 ∧ f2.toNat % 16 ≤ 9 ∧ f3.toNat / 16 ≤ 9 ∧ f3.toNat % 16 ≤ 9) →
      ∃ c : BitVec 16, exec (.unpHexcat v) s = .next { s with bus := some (.centi c) } ∧
        c.toNat = 1000 * (f2.toNat / 16) + 100 * (f2.toNat % 16)
          + 10 * (f3.toNat / 16) + f3.toNat % 16) ∧
    (¬ (f2.toNat / 16 ≤ 9 ∧ f2.toNat % 16 ≤ 9 ∧ f3.toNat / 16 ≤ 9 ∧ f3.toNat % 16 ≤ 9) →
      exec (.unpHexcat v) s = .next { s with bus := some .fail })

/-- R167: the record of a frame that validates. Its identifier and counter are the same in both modes;
ScaledInteger always succeeds; HexDigitConcatenation fails exactly when a payload nibble is above 9.
With `ValAcceptCountsAndDecodes` and `FrCloseCountsValidatesDecodes` this fixes the content of every
`REC`. (The ASCII codes are the spec's general knowledge, assumption log 9.) -/
def Obligations.UnpackGivesRecord : Prop :=
  ∀ (marker f0 f1 f2 f3 : Byte) (v : ValidFrame), validated marker (.four f0 f1 f2 f3) = some v →
    ∃ (ident : BitVec 16) (k : BitVec 7),
      ident.toNat =
        256 * (if marker.toNat / 16 ≤ 9 then 0x30 + marker.toNat / 16 else 0x57 + marker.toNat / 16)
        + (if marker.toNat % 16 ≤ 9 then 0x30 + marker.toNat % 16 else 0x57 + marker.toNat % 16) ∧
      k.toNat = f1.toNat ∧
      (∃ c : BitVec 16, unpack marker .scaledInteger v = some ⟨ident, k, c⟩ ∧
        c.toNat = f2.toNat * 256 + f3.toNat) ∧
      ((f2.toNat / 16 ≤ 9 ∧ f2.toNat % 16 ≤ 9 ∧ f3.toNat / 16 ≤ 9 ∧ f3.toNat % 16 ≤ 9) →
        ∃ c : BitVec 16, unpack marker .hexDigitConcatenation v = some ⟨ident, k, c⟩ ∧
          c.toNat = 1000 * (f2.toNat / 16) + 100 * (f2.toNat % 16)
            + 10 * (f3.toNat / 16) + f3.toNat % 16) ∧
      (¬ (f2.toNat / 16 ≤ 9 ∧ f2.toNat % 16 ≤ 9 ∧ f3.toNat / 16 ≤ 9 ∧ f3.toNat % 16 ≤ 9) →
        unpack marker .hexDigitConcatenation v = none)

/-- R162, R163, R164, R171: the pressure a record denotes: the 16-bit value divided by 100 in
ScaledInteger, the decimal literal `n3 n2 . n1 n0` in HexDigitConcatenation; two records have equal
pressure exactly when their `centi` are equal. -/
def Obligations.RecordDenotesPressure : Prop :=
  (∀ (marker f0 f1 f2 f3 : Byte) (v : ValidFrame) (r : SensorRecord),
    validated marker (.four f0 f1 f2 f3) = some v →
    (unpack marker .scaledInteger v = some r →
      pressure r = ((f2.toNat * 256 + f3.toNat : Nat) : ℚ) / 100) ∧
    (unpack marker .hexDigitConcatenation v = some r →
      pressure r = ((10 * (f2.toNat / 16) + f2.toNat % 16 : Nat) : ℚ)
        + ((10 * (f3.toNat / 16) + f3.toNat % 16 : Nat) : ℚ) / 100)) ∧
  ∀ r1 r2 : SensorRecord, pressure r1 = pressure r2 ↔ r1.centi = r2.centi

/-- R172: the two modes give the same value exactly for the payloads 00 00 to 00 09. -/
def Obligations.ModesAgreeOnlyBelowTen : Prop :=
  ∀ f : ValidFrame, unpackHexcat f = some (unpackScaled f) ↔ f.hi.toNat = 0 ∧ f.lo.toNat ≤ 9

/-- R166: `MODE` changes no count. Mode 0 never ends in `DecodeFailure`. Either the status is the same in
both modes, and so are the identifiers and counters of all records; or mode 1 ends in `DecodeFailure`
where mode 0 succeeds, and its records have the identifiers and counters of the first ones of mode 0. -/
def Obligations.ModeChangesOnlyCenti : Prop :=
  ∀ (p : Params) (text resync : Bool) (input : List Byte),
    (decodeStream p ⟨.hexDigitConcatenation, text, resync⟩ input).total =
      (decodeStream p ⟨.scaledInteger, text, resync⟩ input).total ∧
    (decodeStream p ⟨.hexDigitConcatenation, text, resync⟩ input).accepted =
      (decodeStream p ⟨.scaledInteger, text, resync⟩ input).accepted ∧
    (decodeStream p ⟨.scaledInteger, text, resync⟩ input).status ≠ .decodeFailure ∧
    (((decodeStream p ⟨.hexDigitConcatenation, text, resync⟩ input).status =
        (decodeStream p ⟨.scaledInteger, text, resync⟩ input).status ∧
      ((decodeStream p ⟨.hexDigitConcatenation, text, resync⟩ input).recs.map fun r =>
          (r.id, r.counter)) =
        ((decodeStream p ⟨.scaledInteger, text, resync⟩ input).recs.map fun r => (r.id, r.counter))) ∨
    ((decodeStream p ⟨.hexDigitConcatenation, text, resync⟩ input).status = .decodeFailure ∧
      (decodeStream p ⟨.scaledInteger, text, resync⟩ input).status = .ok ∧
      ((decodeStream p ⟨.hexDigitConcatenation, text, resync⟩ input).recs.map fun r =>
          (r.id, r.counter)) <+:
        ((decodeStream p ⟨.scaledInteger, text, resync⟩ input).recs.map fun r => (r.id, r.counter))))

/-! ### Stream buffer -/

/-- R65, R210: `SB.ST` on a full buffer raises `BufferOverflow`; on the text path a code that is no hex
character raises `BadChar` and a hex character is stored as its value; on the byte path the octet is
stored. The cell written is the one at `COUNT`; every other cell reads as before, and `COUNT` grows
by 1. An error already recorded stays. -/
def Obligations.SbStStoresOrRaises : Prop :=
  ∀ (u : Byte) (s : State), s.sb.dense = true → withinDepth s.params.bufDepth s.count →
    ((∃ n : ℕ+, s.params.bufDepth = .cells n ∧ s.count = (n : Nat)) →
      exec (.sbSt u) s = .next { s with err := if s.err = .ok then .bufferOverflow else s.err }) ∧
    ((∀ n : ℕ+, s.params.bufDepth = .cells n → s.count ≠ (n : Nat)) → s.cfgL.text = true → isHex u = false →
      exec (.sbSt u) s = .next { s with err := if s.err = .ok then .badChar else s.err }) ∧
    (∀ v : Byte, (∀ n : ℕ+, s.params.bufDepth = .cells n → s.count ≠ (n : Nat)) →
      (s.cfgL.text = true ∧ hexValue u = some (loNibble v) ∧ hiNibble v = 0 ∨
        s.cfgL.text = false ∧ u = v) →
      ∃ m : Memory, exec (.sbSt u) s = .next { s with sb := m } ∧
        m.length = s.count + 1 ∧ m.dense = true ∧ m.read s.count = some v ∧
        ∀ a, a ≠ s.count → m.read a = s.sb.read a)

/-- R66: `SB.LD` below `COUNT` gives the octet on the byte path, and on the text path the character value
in bits 3:0 and, where the next cell holds a value, the octet of the pair, first character high. -/
def Obligations.SbLdReadsCells : Prop :=
  ∀ (i : Nat) (v : Byte) (s : State), i < s.count → s.sb.read i = some v →
    (s.cfgL.text = false →
      exec (.sbLd i) s = .next { s with bus := some (.load none (some v)) }) ∧
    (s.cfgL.text = true →
      (i + 1 = s.count → exec (.sbLd i) s =
        .next { s with bus := some (.load (some (loNibble v)) none) }) ∧
      ∀ u : Byte, i + 1 < s.count → s.sb.read (i + 1) = some u → ∃ o : Byte,
        exec (.sbLd i) s = .next { s with bus := some (.load (some (loNibble v)) (some o)) } ∧
        o.toNat = (v.toNat % 16) * 16 + u.toNat % 16)

/-- The model's choice where the spec gives an operation no meaning, since the engine never runs it there
(assumption log 11): pairing an odd-length sequence (R101), appending to a full frame (R22, R132) and
reading at or above `COUNT` (R64) stop with a fault, and change nothing. -/
def Obligations.OperationsStopOutsideTheirDomain : Prop :=
  ∀ s : State,
    (∀ t : List Nibble, t.length % 2 = 1 → exec (.hexPair t) s = .fault .oddLength) ∧
    (∀ b : Byte, frameLen s.frame = 4 → exec (.frAppend b) s = .fault .frameFull) ∧
    (∀ i : Nat, s.count ≤ i → exec (.sbLd i) s = .fault .noValue)

/-! ### Stream control -/

/-- R180, R181: `ST.START` latches the inputs, clears the registers, chooses the path, and then handles
the same event by the row for the new `PHASE`; it always completes. -/
def Obligations.StStartThenHandlesEvent : Prop :=
  ∀ (fin : Bool) (data : Byte) (s c : State),
    c = { s with
      cfgL := s.pins, frame := .empty, total := 0, accepted := 0, err := .ok, sb := [],
      phase := if s.pins.text = false ∧ s.pins.resyncAlways = false then .stream else .collect } →
    exec (.stStart fin data) s =
      exec (decodeEvent c.params.marker c.phase c.err (full c.frame) (BitVec.ofBool fin ++ data)) c ∧
    ∃ t, exec (.stStart fin data) s = .next t

/-- R184: `ST.DISCARD` consumes the unit and changes nothing. -/
def Obligations.StDiscardChangesNothing : Prop :=
  ∀ (u : Byte) (s : State), exec (.stDiscard u) s = .next s

/-- R183: `ST.END.S` closes the open frame, reports, and returns the registers to their reset values. -/
def Obligations.StEndSFlushesAndReports : Prop :=
  ∀ s : State, ∃ c : State, exec .frFlush s = .next c ∧
    exec .stEndS s = .next { c with
      phase := .idle, frame := .empty, total := 0, accepted := 0, err := .ok, sb := [],
      trace := c.trace ++ [.out (.done c.err c.total c.accepted)] }

/-- R189: `ST.END.C` from a state that meets the invariant completes; its output is `DONE(ERR, 0, 0)`
after a collection error, `DONE(1, 0, 0)` for an odd text without an occurrence, and otherwise the
events of the framed octets; every register then has its reset value. -/
def Obligations.StEndCFramesWhatWasCollected : Prop :=
  ∀ s : State, s.Inv → s.phase = .collect → ∃ r : Result,
    exec .stEndC s = .next { s with
      phase := .idle, frame := .empty, total := 0, accepted := 0, err := .ok, sb := [],
      trace := s.trace ++ r.events.map .out } ∧
    (s.err ≠ .ok → r = ⟨[], s.err, 0, 0⟩) ∧
    (s.err = .ok → s.cfgL.text = false →
      r = decodeOctets s.params.marker s.cfgL.mode
        (resyncBytes s.params.marker (s.sb.map fun c => c.2))) ∧
    (s.err = .ok → s.cfgL.text = true → s.count % 2 = 1 →
      (resyncText s.params.marker (s.sb.map fun c => loNibble c.2) = none →
        r = ⟨[], .malformedInput, 0, 0⟩) ∧
      ∀ w, resyncText s.params.marker (s.sb.map fun c => loNibble c.2) = some w →
        r = decodeOctets s.params.marker s.cfgL.mode (hex2oct (trimEven w))) ∧
    (s.err = .ok → s.cfgL.text = true → s.count % 2 = 0 →
      (s.cfgL.resyncAlways = false → r = decodeOctets s.params.marker s.cfgL.mode
        (hex2oct (s.sb.map fun c => loNibble c.2))) ∧
      (s.cfgL.resyncAlways = true → r = decodeOctets s.params.marker s.cfgL.mode
        (resyncBytes s.params.marker (hex2oct (s.sb.map fun c => loNibble c.2)))))

/-- R186: `ST.DONE` emits `DONE(ERR, TOTAL, ACCEPTED)` and returns the registers to their reset values;
`CFG_L` keeps its value. (The premise is part of the invariant, by R35.) -/
def Obligations.StDoneReportsAndClears : Prop :=
  ∀ s : State, s.accepted ≤ s.total →
    exec .stDone s = .next { s with
      phase := .idle, frame := .empty, total := 0, accepted := 0, err := .ok, sb := [],
      trace := s.trace ++ [.out (.done s.err s.total s.accepted)] }

/-! ### Steps -/

/-- R21, R85: when the event offered decodes to an operation, the step takes the event and executes that
operation. -/
def Obligations.StepRunsDecodedOperation : Prop :=
  ∀ (s : State) (pins : Cfg) (w : EventWord) (rest : List HostAct) (i : Instr),
    s.rst = false → s.input = .event pins w :: rest →
    decode s.params.marker (.event s.phase s.err (full s.frame)) 9 w.toNat = .ok i →
    step s = exec i { s with pins := pins, input := rest, bus := none }

/-- R85 as a rule of the step: the operation executed on an event, by `PHASE`, `end`, `ERR`, `LEN` and
the marker. -/
def Obligations.EventSelectsOperation : Prop :=
  ∀ (s : State) (pins : Cfg) (fin : Bool) (d : Byte) (rest : List HostAct),
    s.rst = false → s.input = .event pins (BitVec.ofBool fin ++ d) :: rest →
    step s = exec
      (match s.phase with
        | .idle => .stStart fin d
        | .stream =>
          if fin = true then .stEndS
          else if d = s.params.marker then .frSync
          else if frameLen s.frame = 4 then .frCut d
          else .frAppend d
        | .collect =>
          if fin = true then .stEndC
          else if s.err ≠ .ok then .stDiscard d
          else .sbSt d)
      { s with pins := pins, input := rest, bus := none }

/-- R222: with nothing offered the engine waits, unchanged. -/
def Obligations.EngineWaitsWithoutEvent : Prop :=
  ∀ s : State, s.input = [] → step s = .next s

/-- R41, R230: releasing reset gives every register the value R41 lists (`FB` and `SB` hold no value),
whatever the engine was doing, and emits nothing. The rest is the model's choice: asserting reset
leaves a mark in the trace (assumption log 3) and keeps every register until the release, and driving
the reset input to the value it has changes nothing (assumption log 12). -/
def Obligations.ResetGivesResetState : Prop :=
  ∀ (s : State) (rest : List HostAct),
    (s.rst = false → s.input = .reset true :: rest →
      step s = .next { s with
        rst := true, input := rest, trace := s.trace ++ [.resetAsserted] }) ∧
    (∀ b : Bool, s.rst = b → s.input = .reset b :: rest → step s = .next { s with input := rest }) ∧
    (s.rst = true → s.input = .reset false :: rest →
      step s = .next { s with
        rst := false, input := rest, phase := .idle, cfgL := ⟨.scaledInteger, false, false⟩,
        frame := .empty, total := 0, accepted := 0, err := .ok, sb := [], bus := none })

/-- I15 of spec/93_implementation_defined.md: an event offered while reset is asserted is refused. -/
def Obligations.EventInResetIsRefused : Prop :=
  ∀ (s : State) (pins : Cfg) (w : EventWord) (rest : List HostAct),
    s.rst = true → s.input = .event pins w :: rest → step s = .refused .eventInReset

/-- R7, R237: no step changes the marker (nor the depth of the buffer). -/
def Obligations.ParametersNeverChange : Prop :=
  ∀ s t : State, step s = .next t → t.params = s.params

/-- R27, R188, R242: the configuration is latched at the first event of a stream and at no other event. -/
def Obligations.ConfigurationLatchedOnlyAtStart : Prop :=
  ∀ (s t : State) (pins : Cfg) (w : EventWord) (rest : List HostAct),
    s.rst = false → s.input = .event pins w :: rest → step s = .next t →
    (s.phase ≠ .idle → t.cfgL = s.cfgL) ∧ (s.phase = .idle → t.cfgL = pins)

/-- R185: the transitions of `PHASE`, complete for events. -/
def Obligations.PhaseTransitions : Prop :=
  ∀ (s t : State) (pins : Cfg) (w : EventWord) (rest : List HostAct),
    s.rst = false → s.input = .event pins w :: rest → step s = .next t →
    (w.msb = true → t.phase = .idle) ∧
    (w.msb = false → s.phase ≠ .idle → t.phase = s.phase) ∧
    (w.msb = false → s.phase = .idle →
      t.phase = if pins.text = false ∧ pins.resyncAlways = false then .stream else .collect)

/-- R209, R214, R216: once `ERR` is not 0 it stays until the `END` of the stream and no record is emitted;
the `END` reports that error. -/
def Obligations.FirstErrorSticksAndSilencesRecords : Prop :=
  ∀ (s t : State) (pins : Cfg) (w : EventWord) (rest : List HostAct),
    s.rst = false → s.input = .event pins w :: rest → step s = .next t →
    s.phase ≠ .idle → s.err ≠ .ok →
    (w.msb = false → t.err = s.err ∧ t.trace = s.trace) ∧
    (w.msb = true → ∃ total accepted, t.trace = s.trace ++ [.out (.done s.err total accepted)])

/-- R59, R182, R186, R190, R191: an `END` emits records and then exactly one `DONE`; a `UNIT` emits at most
one record, and none on a store-and-forward path. -/
def Obligations.EveryEndReportsOnce : Prop :=
  ∀ (s t : State) (pins : Cfg) (w : EventWord) (rest : List HostAct),
    s.rst = false → s.input = .event pins w :: rest → step s = .next t →
    (w.msb = true → ∃ (recs : List SensorRecord) (status : Err) (total accepted : Count), t.trace = s.trace
      ++ recordItems recs ++ [.out (.done status total accepted)]) ∧
    (w.msb = false → t.trace = s.trace ∨
      (t.phase = .stream ∧ ∃ r, t.trace = s.trace ++ [.out (.record r)]))

/-- R212: a batch that ends with `MalformedInput`, `BufferOverflow` or `BadChar` holds no record, and its
counts are 0. -/
def Obligations.CollectionFailuresHoldNoRecord : Prop :=
  ∀ (s t : State) (pins : Cfg) (w : EventWord) (rest : List HostAct) (recs : List SensorRecord)
    (status : Err) (total accepted : Count),
    s.Inv → s.rst = false → s.input = .event pins w :: rest → step s = .next t →
    t.trace = s.trace ++ recordItems recs ++ [.out (.done status total accepted)] →
    status = .malformedInput ∨ status = .bufferOverflow ∨ status = .badChar →
    recs = [] ∧ total = 0 ∧ accepted = 0

/-- R70 and I10 of spec/93_implementation_defined.md: the `data` bits of `END` have no effect. -/
def Obligations.EndDataHasNoEffect : Prop :=
  ∀ (s : State) (pins : Cfg) (d e : Byte) (rest : List HostAct),
    step { s with input := .event pins (endWord d) :: rest } =
      step { s with input := .event pins (endWord e) :: rest }

/-- R183, R194 (g): the empty stream gives no record and no error, for every configuration. -/
def Obligations.EmptyStreamIsNoError : Prop :=
  ∀ (s : State) (pins : Cfg) (d : Byte) (rest : List HostAct),
    s.rst = false → s.phase = .idle → s.input = .event pins (endWord d) :: rest →
    ∃ t, step s = .next t ∧ t.phase = .idle ∧ t.trace = s.trace ++ [.out (.done .ok 1 0)]

/-- R39, R60, R232: between streams nothing of the past is left: from two such states with the same
parameters and the same event, the step goes to the same state and emits the same events, whatever
streams came before. -/
def Obligations.StreamsAreIndependent : Prop :=
  ∀ (s1 s2 : State) (pins : Cfg) (w : EventWord) (rest : List HostAct),
    s1.Inv → s2.Inv → s1.phase = .idle → s2.phase = .idle → s1.rst = false → s2.rst = false →
    s1.params = s2.params → s1.input = .event pins w :: rest → s2.input = .event pins w :: rest →
    ∃ (t : State) (emitted : List TraceItem),
      step s1 = .next { t with trace := s1.trace ++ emitted } ∧
      step s2 = .next { t with trace := s2.trace ++ emitted }

/-! ### The invariant -/

/-- R41: the state after reset meets the invariant. -/
def Obligations.ResetMeetsInvariant : Prop := State.reset.Inv

/-- Every step keeps the invariant (R34 to R38, R135 (a) and (b), R181, R205, R206). -/
def Obligations.StepKeepsInvariant : Prop :=
  ∀ s t : State, s.Inv → step s = .next t → t.Inv

/-- From a state that meets the invariant a step is taken; the one exception is an event offered while
reset is asserted. -/
def Obligations.StepNeverFaults : Prop :=
  ∀ s : State, s.Inv → s.Safe ∧
    ((∃ t, step s = .next t) ∨
      (s.rst = true ∧ ∃ pins w rest, s.input = .event pins w :: rest ∧ step s = .refused .eventInReset))

/-! ### Encoding -/

/-- Words of the table written out bit by bit: `FR.SYNC` 0 1000 0000, `FR.CUT` and `FR.APPEND` of 0x04,
`ST.END.S` with its ignored bits set, `SB.ST` of the code of `8`, `DET.T` of the characters 8 and 0, and
`VAL.ACCEPT` of 80 01 00 39. -/
def Obligations.TableWordsDecode : Prop :=
  decode 0x80 (.event .stream .ok true) 9 0b010000000 = .ok .frSync ∧
  decode 0x80 (.event .stream .ok true) 9 0b000000100 = .ok (.frCut 0x04) ∧
  decode 0x80 (.event .stream .ok false) 9 0b000000100 = .ok (.frAppend 0x04) ∧
  decode 0x80 (.event .stream .ok false) 9 0b111111111 = .ok .stEndS ∧
  decode 0x80 (.event .collect .ok false) 9 0b000111000 = .ok (.sbSt 0x38) ∧
  decode 0x80 .pair 8 0b10000000 = .ok (.detT 8 (some 0)) ∧
  decode 0x80 .close 32 0b10000000000000010000000000111001 = .ok (.valAccept ⟨1, 0x00, 0x39⟩)

/-- R85: for every well-formed operation that has a word, under every selection of its row, decoding its
word gives it back. (The word of a candidate shorter than 4 octets is the model's choice, assumption
log 17.) -/
def Obligations.DecodeOfEncode : Prop :=
  ∀ (marker : Byte) (sel : Select) (i : Instr) (c : Code),
    WellFormed marker i = true → selects sel i = true → encode marker i = some c →
    decode marker sel c.nbits c.word = .ok i

/-- R85, R70: what the decoder accepts is well formed, selected by its row, and the word is its encoding,
but for the ignored `data` bits of the two `END` rows. (The word of a candidate shorter than 4 octets is
the model's choice, assumption log 17.) -/
def Obligations.DecodeIsSound : Prop :=
  ∀ (marker : Byte) (sel : Select) (nbits word : Nat) (i : Instr),
    decode marker sel nbits word = .ok i →
    WellFormed marker i = true ∧ selects sel i = true ∧
    ∃ c, encode marker i = some c ∧ c.nbits = nbits ∧
      (c.word = word ∨ ((i = .stEndS ∨ i = .stEndC) ∧ 256 ≤ word ∧ word < 512))

/-! ### The whole engine -/

/-- R193: for every configuration and every stream, the steps emit the records of `decode(cfg, input)` in
order and then its `DONE`, and leave every register at its reset value; a configuration presented
after the first event has no effect. -/
def Obligations.StreamAgreesWithDecode : Prop :=
  ∀ (s : State) (units : List (Cfg × Byte)) (last : Cfg × Byte) (rest : List HostAct),
    s.rst = false → s.phase = .idle → s.input = streamActs units last ++ rest →
    Host.Core.run Sys2Proof.core (units.length + 1) s = .next { s with
      pins := last.1, input := rest, phase := .idle, cfgL := streamCfg units last, frame := .empty,
      total := 0, accepted := 0, err := .ok, sb := [], bus := none,
      trace := s.trace
        ++ (decodeStream s.params (streamCfg units last) (units.map fun u => u.2)).events.map .out }

/-- R201: `MalformedInput` is the status exactly for text that was collected whole, has odd length, and
holds no occurrence of the marker's text; the result is then no record and `DONE(1, 0, 0)`. -/
def Obligations.MalformedInputExactlyWhen : Prop :=
  ∀ (p : Params) (cfg : Cfg) (input : List Byte),
    ((decodeStream p cfg input).status = .malformedInput ↔
      cfg.text = true ∧ (∀ u ∈ input, isHex u = true) ∧ withinDepth p.bufDepth input.length ∧
      input.length % 2 = 1 ∧ ∀ i, occText p.marker (input.filterMap hexValue) i = false) ∧
    ((decodeStream p cfg input).status = .malformedInput →
      decodeStream p cfg input = ⟨[], .malformedInput, 0, 0⟩)

/-- R194 (b): resynchronizing a clean byte stream changes neither its records nor its status, where the
buffer holds the stream. -/
def Obligations.ResyncIsIdempotentOnCleanStreams : Prop :=
  ∀ (p : Params) (mode : Mode) (fs : List (Byte × Byte × Byte)),
    withinDepth p.bufDepth (4 * fs.length) →
    decodeStream p ⟨mode, false, true⟩ (fs.flatMap fun f => [p.marker, f.1, f.2.1, f.2.2]) =
      decodeStream p ⟨mode, false, false⟩ (fs.flatMap fun f => [p.marker, f.1, f.2.1, f.2.2])

/-- R62, R213, R231, R243: a sink that does its duty on the engine's output. After a run of one stream from
between streams it has committed the records of `decode(cfg, input)` when its status is 0, and nothing
otherwise; after a stream cut by reset it has committed nothing. (That the assertion of reset is seen
in the trace is the model's choice, assumption log 3.) -/
def Obligations.SinkCommitsOnlyGoodBatches : Prop :=
  ∀ (s : State) (units : List (Cfg × Byte)) (last : Cfg × Byte) (rest : List HostAct),
    s.rst = false → s.phase = .idle → (sinkAfter s.trace).pending = [] →
    (s.input = streamActs units last ++ rest →
      ∃ t : State, Host.Core.run Sys2Proof.core (units.length + 1) s = .next t ∧
        sinkAfter t.trace = ⟨[], (sinkAfter s.trace).committed ++
          if (decodeStream s.params (streamCfg units last) (units.map fun u => u.2)).status = .ok
          then (decodeStream s.params (streamCfg units last) (units.map fun u => u.2)).recs else []⟩) ∧
    (s.input = units.map (fun u => .event u.1 (unitWord u.2)) ++ .reset true :: rest →
      ∃ t : State, Host.Core.run Sys2Proof.core (units.length + 1) s = .next t ∧
        sinkAfter t.trace = ⟨[], (sinkAfter s.trace).committed⟩)
end

