-- ==== Sys2Proof/Laws/State.lean ====
section
/-! SUPPORT. One lemma per field per update of the state, so that no later proof unfolds an update. -/

namespace Sys2Proof.Machine

variable (s : State)

/-! `emit` -/

@[simp] theorem State.emit_params (e : OutEvent) : (s.emit e).params = s.params := rfl

@[simp] theorem State.emit_rst (e : OutEvent) : (s.emit e).rst = s.rst := rfl

@[simp] theorem State.emit_pins (e : OutEvent) : (s.emit e).pins = s.pins := rfl

@[simp] theorem State.emit_input (e : OutEvent) : (s.emit e).input = s.input := rfl

@[simp] theorem State.emit_phase (e : OutEvent) : (s.emit e).phase = s.phase := rfl

@[simp] theorem State.emit_cfgL (e : OutEvent) : (s.emit e).cfgL = s.cfgL := rfl

@[simp] theorem State.emit_frame (e : OutEvent) : (s.emit e).frame = s.frame := rfl

@[simp] theorem State.emit_total (e : OutEvent) : (s.emit e).total = s.total := rfl

@[simp] theorem State.emit_accepted (e : OutEvent) : (s.emit e).accepted = s.accepted := rfl

@[simp] theorem State.emit_err (e : OutEvent) : (s.emit e).err = s.err := rfl

@[simp] theorem State.emit_sb (e : OutEvent) : (s.emit e).sb = s.sb := rfl

@[simp] theorem State.emit_bus (e : OutEvent) : (s.emit e).bus = s.bus := rfl

@[simp] theorem State.emit_trace (e : OutEvent) : (s.emit e).trace = s.trace ++ [.out e] := rfl

/-! `deliver` -/

@[simp] theorem State.deliver_params (v : BusValue) : (s.deliver v).params = s.params := rfl

@[simp] theorem State.deliver_rst (v : BusValue) : (s.deliver v).rst = s.rst := rfl

@[simp] theorem State.deliver_pins (v : BusValue) : (s.deliver v).pins = s.pins := rfl

@[simp] theorem State.deliver_input (v : BusValue) : (s.deliver v).input = s.input := rfl

@[simp] theorem State.deliver_phase (v : BusValue) : (s.deliver v).phase = s.phase := rfl

@[simp] theorem State.deliver_cfgL (v : BusValue) : (s.deliver v).cfgL = s.cfgL := rfl

@[simp] theorem State.deliver_frame (v : BusValue) : (s.deliver v).frame = s.frame := rfl

@[simp] theorem State.deliver_total (v : BusValue) : (s.deliver v).total = s.total := rfl

@[simp] theorem State.deliver_accepted (v : BusValue) : (s.deliver v).accepted = s.accepted := rfl

@[simp] theorem State.deliver_err (v : BusValue) : (s.deliver v).err = s.err := rfl

@[simp] theorem State.deliver_sb (v : BusValue) : (s.deliver v).sb = s.sb := rfl

@[simp] theorem State.deliver_bus (v : BusValue) : (s.deliver v).bus = some v := rfl

@[simp] theorem State.deliver_trace (v : BusValue) : (s.deliver v).trace = s.trace := rfl

/-! `takeEvent` -/

@[simp] theorem State.takeEvent_params (p : Cfg) (rest : List HostAct) : (s.takeEvent p rest).params = s.params := rfl

@[simp] theorem State.takeEvent_rst (p : Cfg) (rest : List HostAct) : (s.takeEvent p rest).rst = s.rst := rfl

@[simp] theorem State.takeEvent_pins (p : Cfg) (rest : List HostAct) : (s.takeEvent p rest).pins = p := rfl

@[simp] theorem State.takeEvent_input (p : Cfg) (rest : List HostAct) : (s.takeEvent p rest).input = rest := rfl

@[simp] theorem State.takeEvent_phase (p : Cfg) (rest : List HostAct) : (s.takeEvent p rest).phase = s.phase := rfl

@[simp] theorem State.takeEvent_cfgL (p : Cfg) (rest : List HostAct) : (s.takeEvent p rest).cfgL = s.cfgL := rfl

@[simp] theorem State.takeEvent_frame (p : Cfg) (rest : List HostAct) : (s.takeEvent p rest).frame = s.frame := rfl

@[simp] theorem State.takeEvent_total (p : Cfg) (rest : List HostAct) : (s.takeEvent p rest).total = s.total := rfl

@[simp] theorem State.takeEvent_accepted (p : Cfg) (rest : List HostAct) : (s.takeEvent p rest).accepted = s.accepted := rfl

@[simp] theorem State.takeEvent_err (p : Cfg) (rest : List HostAct) : (s.takeEvent p rest).err = s.err := rfl

@[simp] theorem State.takeEvent_sb (p : Cfg) (rest : List HostAct) : (s.takeEvent p rest).sb = s.sb := rfl

@[simp] theorem State.takeEvent_bus (p : Cfg) (rest : List HostAct) : (s.takeEvent p rest).bus = none := rfl

@[simp] theorem State.takeEvent_trace (p : Cfg) (rest : List HostAct) : (s.takeEvent p rest).trace = s.trace := rfl

/-! `startStream` -/

@[simp] theorem State.startStream_params : (s.startStream).params = s.params := rfl

@[simp] theorem State.startStream_rst : (s.startStream).rst = s.rst := rfl

@[simp] theorem State.startStream_pins : (s.startStream).pins = s.pins := rfl

@[simp] theorem State.startStream_input : (s.startStream).input = s.input := rfl

@[simp] theorem State.startStream_phase : (s.startStream).phase = pathOf s.pins := rfl

@[simp] theorem State.startStream_cfgL : (s.startStream).cfgL = s.pins := rfl

@[simp] theorem State.startStream_frame : (s.startStream).frame = .empty := rfl

@[simp] theorem State.startStream_total : (s.startStream).total = 0 := rfl

@[simp] theorem State.startStream_accepted : (s.startStream).accepted = 0 := rfl

@[simp] theorem State.startStream_err : (s.startStream).err = .ok := rfl

@[simp] theorem State.startStream_sb : (s.startStream).sb = [] := rfl

@[simp] theorem State.startStream_bus : (s.startStream).bus = s.bus := rfl

@[simp] theorem State.startStream_trace : (s.startStream).trace = s.trace := rfl

/-! `finish` -/

@[simp] theorem State.finish_params (framed : Bool) : (s.finish framed).params = s.params := rfl

@[simp] theorem State.finish_rst (framed : Bool) : (s.finish framed).rst = s.rst := rfl

@[simp] theorem State.finish_pins (framed : Bool) : (s.finish framed).pins = s.pins := rfl

@[simp] theorem State.finish_input (framed : Bool) : (s.finish framed).input = s.input := rfl

@[simp] theorem State.finish_phase (framed : Bool) : (s.finish framed).phase = .idle := rfl

@[simp] theorem State.finish_cfgL (framed : Bool) : (s.finish framed).cfgL = s.cfgL := rfl

@[simp] theorem State.finish_frame (framed : Bool) : (s.finish framed).frame = .empty := rfl

@[simp] theorem State.finish_total (framed : Bool) : (s.finish framed).total = 0 := rfl

@[simp] theorem State.finish_accepted (framed : Bool) : (s.finish framed).accepted = 0 := rfl

@[simp] theorem State.finish_err (framed : Bool) : (s.finish framed).err = .ok := rfl

@[simp] theorem State.finish_sb (framed : Bool) : (s.finish framed).sb = [] := rfl

@[simp] theorem State.finish_bus (framed : Bool) : (s.finish framed).bus = s.bus := rfl

@[simp] theorem State.finish_trace (framed : Bool) : (s.finish framed).trace = s.trace ++ [.out (if framed then .done s.err s.total s.accepted else .done s.err 0 0)] := rfl

/-! `raise` -/

@[simp] theorem State.raise_params (e : Err) : (s.raise e).params = s.params := by unfold State.raise; split <;> rfl

@[simp] theorem State.raise_rst (e : Err) : (s.raise e).rst = s.rst := by unfold State.raise; split <;> rfl

@[simp] theorem State.raise_pins (e : Err) : (s.raise e).pins = s.pins := by unfold State.raise; split <;> rfl

@[simp] theorem State.raise_input (e : Err) : (s.raise e).input = s.input := by unfold State.raise; split <;> rfl

@[simp] theorem State.raise_phase (e : Err) : (s.raise e).phase = s.phase := by unfold State.raise; split <;> rfl

@[simp] theorem State.raise_cfgL (e : Err) : (s.raise e).cfgL = s.cfgL := by unfold State.raise; split <;> rfl

@[simp] theorem State.raise_frame (e : Err) : (s.raise e).frame = s.frame := by unfold State.raise; split <;> rfl

@[simp] theorem State.raise_total (e : Err) : (s.raise e).total = s.total := by unfold State.raise; split <;> rfl

@[simp] theorem State.raise_accepted (e : Err) : (s.raise e).accepted = s.accepted := by unfold State.raise; split <;> rfl

@[simp] theorem State.raise_sb (e : Err) : (s.raise e).sb = s.sb := by unfold State.raise; split <;> rfl

@[simp] theorem State.raise_bus (e : Err) : (s.raise e).bus = s.bus := by unfold State.raise; split <;> rfl

@[simp] theorem State.raise_trace (e : Err) : (s.raise e).trace = s.trace := by unfold State.raise; split <;> rfl

/-- The first error of a stream sticks (R209). -/
theorem State.raise_err (e : Err) : (s.raise e).err = if s.err = .ok then e else s.err := by
  unfold State.raise
  split <;> rfl

@[simp] theorem State.raise_of_ok (e : Err) (h : s.err = .ok) : s.raise e = { s with err := e } := if_pos h

@[simp] theorem State.raise_of_error (e : Err) (h : s.err ≠ .ok) : s.raise e = s := if_neg h

/-- `COUNT` is the number of cells held (R38). -/
theorem State.count_eq : s.count = s.sb.length := rfl

end Sys2Proof.Machine
end

