-- ==== Sys2Proof/Laws/Codes.lean ====
section
/-! SUPPORT. Facts about nibbles, octets, event words, candidate frames and saturating counters. -/

namespace Sys2Proof.Machine

theorem hiNibble_toNat (b : Byte) : (hiNibble b).toNat = b.toNat / 16 := by
  have := b.isLt
  simp [hiNibble, Nat.shiftRight_eq_div_pow]
  omega

theorem loNibble_toNat (b : Byte) : (loNibble b).toNat = b.toNat % 16 := by
  simp [loNibble]

theorem octetOfPair_toNat (c0 c1 : Nibble) : (octetOfPair c0 c1).toNat = c0.toNat * 16 + c1.toNat := by
  have := c1.isLt
  rw [octetOfPair, BitVec.toNat_append, Nat.shiftLeft_eq, ← Nat.shiftLeft_eq,
    ← Nat.shiftLeft_add_eq_or_of_lt this, Nat.shiftLeft_eq]

@[simp] theorem octetOfPair_nibbles (b : Byte) : octetOfPair (hiNibble b) (loNibble b) = b := by
  apply BitVec.eq_of_toNat_eq
  rw [octetOfPair_toNat, hiNibble_toNat, loNibble_toNat]
  omega

@[simp] theorem loNibble_cellOfChar (v : Nibble) : loNibble (cellOfChar v) = v := by
  revert v; decide

@[simp] theorem hiNibble_cellOfChar (v : Nibble) : hiNibble (cellOfChar v) = 0 := by
  revert v; decide

theorem cellOfChar_of_nibbles (v : Byte) (h : hiNibble v = 0) : cellOfChar (loNibble v) = v := by
  apply BitVec.eq_of_toNat_eq
  have h0 := congrArg BitVec.toNat h
  rw [hiNibble_toNat] at h0
  have := v.isLt
  simp [cellOfChar, loNibble_toNat] at *
  omega

/-- `is_hex(c)` holds exactly when `hv(c)` is defined (R100). -/
theorem isHex_eq_isSome (c : Byte) : isHex c = (hexValue c).isSome := by
  revert c; decide

@[simp] theorem unitWord_msb (u : Byte) : (unitWord u).msb = false := by
  revert u; decide

@[simp] theorem unitWord_data (u : Byte) : (unitWord u).extractLsb' 0 8 = u := by
  revert u; decide

@[simp] theorem endWord_msb (u : Byte) : (endWord u).msb = true := by
  revert u; decide

theorem ofBool_append_msb (fin : Bool) (d : Byte) : (BitVec.ofBool fin ++ d : EventWord).msb = fin := by
  cases fin <;> revert d <;> decide

theorem ofBool_append_data (fin : Bool) (d : Byte) :
    (BitVec.ofBool fin ++ d : EventWord).extractLsb' 0 8 = d := by
  cases fin <;> revert d <;> decide

/-! ### Candidate frames -/

@[simp] theorem frameOctets_length (f : Frame) : (frameOctets f).length = frameLen f := by
  cases f <;> rfl

@[simp] theorem frameOfOctets_frameOctets (f : Frame) : frameOfOctets (frameOctets f) = some f := by
  cases f <;> rfl

theorem full_iff (f : Frame) : full f = true ↔ frameLen f = 4 := by
  simp [full]

theorem frameAppend_eq_none (f : Frame) (b : Byte) : frameAppend f b = none ↔ full f = true := by
  cases f <;> simp [frameAppend, full, frameLen]

theorem frameOctets_append (f g : Frame) (b : Byte) (h : frameAppend f b = some g) :
    frameOctets g = frameOctets f ++ [b] := by
  cases f <;> simp [frameAppend] at h <;> subst h <;> rfl

theorem frameLen_le (f : Frame) : frameLen f ≤ 4 := by
  cases f <;> simp [frameLen]

/-- The accepted candidates, by their octets (R150). -/
theorem validated_eq_some (marker : Byte) (f : Frame) (v : ValidFrame) :
    validated marker f = some v ↔ ∃ b, f = .four marker b v.hi v.lo ∧ b.toNat ≤ 0x7F ∧
      v.counter = b.extractLsb' 0 7 := by
  cases f with
  | four f0 f1 f2 f3 =>
    simp only [validated, valid, lenOk, markerOk, counterOk, frameLen, frameFields]
    have hle : (f1 ≤ counterMax) ↔ f1.toNat ≤ 0x7F := by
      simp [BitVec.le_def]
    constructor
    · intro h
      obtain ⟨⟨rfl, hc⟩, rfl⟩ : (f0 = marker ∧ f1 ≤ counterMax) ∧
          (⟨f1.extractLsb' 0 7, f2, f3⟩ : ValidFrame) = v := by simpa using h
      exact ⟨f1, rfl, hle.mp hc, rfl⟩
    · rintro ⟨b, hf, hb, hc⟩
      simp only [Frame.four.injEq] at hf
      obtain ⟨rfl, rfl, rfl, rfl⟩ := hf
      have hb' := hle.mpr hb
      obtain ⟨c, h, l⟩ := v
      simp only at hc
      subst hc
      simp [hb']
  | _ => simp [validated, valid, lenOk, frameLen]

theorem validated_eq_none (marker : Byte) (f : Frame) :
    validated marker f = none ↔ ∀ b c d, f = .four marker b c d → 0x7F < b.toNat := by
  constructor
  · rintro h b c d rfl
    by_contra hb
    have := (validated_eq_some marker (.four marker b c d) ⟨b.extractLsb' 0 7, c, d⟩).mpr
      ⟨b, rfl, by omega, rfl⟩
    simp [h] at this
  · intro h
    cases hv : validated marker f with
    | none => rfl
    | some v =>
      obtain ⟨b, hf, hb, -⟩ := (validated_eq_some marker f v).mp hv
      have := h b _ _ hf
      omega

/-- The counter of a validated frame is its second octet (R80). -/
theorem counter_toNat (b : Byte) (h : b.toNat ≤ 0x7F) : (b.extractLsb' 0 7).toNat = b.toNat := by
  simp
  omega

theorem setWidth_counter (b : Byte) (h : b.toNat ≤ 0x7F) : (b.extractLsb' 0 7).setWidth 8 = b := by
  apply BitVec.eq_of_toNat_eq
  simp
  omega

/-- The frame built from the fields of a validated frame is the frame. -/
theorem frameOfFields_of_validated (marker : Byte) (f : Frame) (v : ValidFrame)
    (h : validated marker f = some v) : frameOfFields marker v = f := by
  obtain ⟨b, rfl, hb, hc⟩ := (validated_eq_some marker f v).mp h
  rw [frameOfFields, hc, setWidth_counter b hb]

theorem validated_frameOfFields (marker : Byte) (v : ValidFrame) :
    validated marker (frameOfFields marker v) = some v := by
  refine (validated_eq_some _ _ _).mpr ⟨v.counter.setWidth 8, rfl, ?_, ?_⟩
  · have := v.counter.isLt
    simp
    omega
  · apply BitVec.eq_of_toNat_eq
    have := v.counter.isLt
    simp
    omega

/-! ### Saturating counters (R35) -/

/-- `v` counted up `n` times. -/
def satAdd (v : Count) (n : Nat) : Count := .ofNat 32 (min (v.toNat + n) (2 ^ 32 - 1))

theorem satInc_eq (v : Count) : satInc v = .ofNat 32 (min (v.toNat + 1) (2 ^ 32 - 1)) := by
  have hv := v.isLt
  apply BitVec.eq_of_toNat_eq
  unfold satInc
  split
  · rename_i h
    subst h
    decide
  · rename_i h
    have hne : v.toNat ≠ 2 ^ 32 - 1 := fun h' => h (BitVec.eq_of_toNat_eq (by simpa using h'))
    simp only [BitVec.toNat_add, BitVec.toNat_ofNat, show (1 : Count).toNat = 1 from rfl]
    omega

@[simp] theorem satAdd_zero (v : Count) : satAdd v 0 = v := by
  have hv := v.isLt
  apply BitVec.eq_of_toNat_eq
  simp only [satAdd, BitVec.toNat_ofNat]
  omega

theorem satAdd_satInc (v : Count) (n : Nat) : satAdd (satInc v) n = satAdd v (n + 1) := by
  have hv := v.isLt
  apply BitVec.eq_of_toNat_eq
  rw [satInc_eq]
  simp only [satAdd, BitVec.toNat_ofNat]
  omega

theorem satAdd_of_zero (n : Nat) : satAdd 0 n = saturate n := by
  simp [satAdd, saturate]

theorem satInc_le_satInc (u v : Count) (h : u ≤ v) : satInc u ≤ satInc v := by
  rw [satInc_eq, satInc_eq]
  simp only [BitVec.le_def, BitVec.toNat_ofNat] at *
  omega

theorem le_satInc (u v : Count) (h : u ≤ v) : u ≤ satInc v := by
  rw [satInc_eq]
  have := u.isLt
  simp only [BitVec.le_def, BitVec.toNat_ofNat] at *
  omega

end Sys2Proof.Machine
end

