-- ==== Sys2Proof/Laws/Decoder.lean ====
section
/-! SUPPORT. The decoder and the sink: what a record can be, where the records of a result come from, and
the capacity of the stream buffer. -/

namespace Sys2Proof.Machine

/-- R163. -/
theorem unpackScaled_toNat (f : ValidFrame) : (unpackScaled f).toNat = f.hi.toNat * 256 + f.lo.toNat := by
  rw [unpackScaled, rawOf, BitVec.toNat_append, ← Nat.shiftLeft_add_eq_or_of_lt f.lo.isLt,
    Nat.shiftLeft_eq]

theorem nondecimal_eq_false (hi lo : Byte) : nondecimal hi lo = false ↔
    hi.toNat / 16 ≤ 9 ∧ hi.toNat % 16 ≤ 9 ∧ lo.toNat / 16 ≤ 9 ∧ lo.toNat % 16 ≤ 9 := by
  simp [nondecimal, BitVec.le_def, hiNibble_toNat, loNibble_toNat, and_assoc]

/-- Everything `UNP.HEXCAT` can give (R164, R165). -/
theorem unpackHexcat_cases (f : ValidFrame) :
    (nondecimal f.hi f.lo = true ∧ unpackHexcat f = none) ∨
    ∃ c, nondecimal f.hi f.lo = false ∧ unpackHexcat f = some c ∧
      c.toNat = 1000 * (f.hi.toNat / 16) + 100 * (f.hi.toNat % 16) + 10 * (f.lo.toNat / 16)
        + f.lo.toNat % 16 := by
  cases h : nondecimal f.hi f.lo with
  | true => exact .inl ⟨rfl, by simp [unpackHexcat, h]⟩
  | false =>
    have hd := (nondecimal_eq_false f.hi f.lo).mp h
    refine .inr ⟨_, rfl, by simp only [unpackHexcat, h, Bool.false_eq_true, if_false]; rfl, ?_⟩
    simp only [BitVec.toNat_ofNat, hiNibble_toNat, loNibble_toNat]
    omega

@[simp] theorem unpack_scaled (marker : Byte) (f : ValidFrame) :
    unpack marker .scaledInteger f = some ⟨unpackId marker, unpackCounter f, unpackScaled f⟩ := rfl

theorem unpack_hexcat (marker : Byte) (f : ValidFrame) : unpack marker .hexDigitConcatenation f =
    (unpackHexcat f).map fun c => ⟨unpackId marker, unpackCounter f, c⟩ := rfl

/-- The octets of an accepted candidate. -/
theorem validFrame_octets (marker : Byte) (f : List Byte) (v : ValidFrame)
    (h : validFrame marker f = some v) : f = [marker, v.counter.setWidth 8, v.hi, v.lo] := by
  obtain ⟨g, hg, hv⟩ := Option.bind_eq_some_iff.mp h
  obtain rfl := frameOfFields_of_validated _ _ _ hv
  match f, hg with
  | [a, b, c, d], hg =>
    simp [frameOfOctets, frameOfFields] at hg
    simp [hg]

/-- Every record of a result is the record of an accepted frame. -/
theorem exists_of_mem_unpackAll (marker : Byte) (mode : Mode) (vs : List ValidFrame) (r : SensorRecord)
    (h : r ∈ (unpackAll marker mode vs).1) : ∃ v ∈ vs, unpack marker mode v = some r := by
  induction vs with
  | nil => simp [unpackAll] at h
  | cons v rest ih =>
    rw [unpackAll] at h
    cases hu : unpack marker mode v with
    | none => simp [hu] at h
    | some x =>
      simp only [hu, List.mem_cons] at h
      rcases h with rfl | h
      · exact ⟨v, by simp, hu⟩
      · obtain ⟨w, hw, hr⟩ := ih h
        exact ⟨w, by simp [hw], hr⟩

/-- The sink only holds the records of a batch until its `DONE`. -/
theorem foldl_take_recordItems (k : Sink) (recs : List SensorRecord) :
    (recordItems recs).foldl Sink.take k = ⟨k.pending ++ recs, k.committed⟩ := by
  induction recs generalizing k with
  | nil => simp [recordItems]
  | cons r rest ih =>
    rw [show recordItems (r :: rest) = .out (.record r) :: recordItems rest from rfl, List.foldl_cons, ih]
    simp [Sink.take]

/-- `COUNT == BUF_DEPTH` (R65). -/
theorem depthReached_iff (d : BufDepth) (n : Nat) :
    depthReached d n = true ↔ ∃ m : ℕ+, d = .cells m ∧ n = (m : Nat) := by
  cases d <;> simp [depthReached]

/-- `BUF_DEPTH` is positive (R8): an empty buffer is never full. -/
@[simp] theorem depthReached_zero (d : BufDepth) : depthReached d 0 = false := by
  cases d with
  | cells n => simpa [depthReached] using n.ne_zero.symm
  | infinite => rfl

/-- Within `BUF_DEPTH` a buffer that is not full has a cell at `COUNT`. -/
theorem cellExists_of_withinDepth (d : BufDepth) (n : Nat) (h : withinDepth d n) :
    cellExists d n = !depthReached d n := by
  cases d with
  | infinite => rfl
  | cells m =>
    have h : n ≤ (m : Nat) := h
    rw [Bool.eq_iff_iff]
    simp [cellExists, depthReached]
    omega

end Sys2Proof.Machine
end

