-- ==== Sys2Proof/Laws/PerInstr.lean ====
section
/-! SUPPORT. One lemma per operation: its word fits the bits of its format. -/

namespace Sys2Proof.Laws.EncodingFits

open Sys2Proof

/-- The word of the operation has no bit above the width of its format. -/
def Statement (i : Instr) : Prop :=
  ∀ (marker : Byte) (c : Code), encode marker i = some c → c.word < 2 ^ c.nbits

theorem candidate (f : Frame) : (wordOfCandidate f).word < 2 ^ (wordOfCandidate f).nbits := by
  cases f with
  | empty => decide
  | _ => exact BitVec.isLt _

theorem event (b : Byte) (c : Code) (h : some ⟨9, b.toNat⟩ = some c) : c.word < 2 ^ c.nbits := by
  cases h
  have := b.isLt
  simp only
  omega

theorem stStart (fin : Bool) (data : Byte) : Statement (.stStart fin data) := by
  intro m c h
  cases h
  exact BitVec.isLt _
theorem stDiscard (u : Byte) : Statement (.stDiscard u) := fun _ c h => event u c h
theorem stEndS : Statement .stEndS := by
  intro m c h
  cases h
  decide
theorem stEndC : Statement .stEndC := by
  intro m c h
  cases h
  decide
theorem stDone : Statement .stDone := fun _ _ h => nomatch h
theorem sbSt (u : Byte) : Statement (.sbSt u) := fun _ c h => event u c h
theorem sbLd (i : Nat) : Statement (.sbLd i) := fun _ _ h => nomatch h
theorem hexVal (b : Byte) : Statement (.hexVal b) := by
  intro m c h
  cases h
  exact b.isLt
theorem hexPair (t : List Nibble) : Statement (.hexPair t) := fun _ _ h => nomatch h
theorem hexTrim (w : List Nibble) : Statement (.hexTrim w) := fun _ _ h => nomatch h
theorem detB (b : Byte) : Statement (.detB b) := by
  intro m c h
  cases h
  exact b.isLt
theorem detT (ti : Nibble) (ti1 : Option Nibble) : Statement (.detT ti ti1) := by
  intro m c h
  cases ti1 with
  | none => nomatch h
  | some u =>
    cases h
    exact BitVec.isLt _
theorem rsB (s : List Byte) : Statement (.rsB s) := fun _ _ h => nomatch h
theorem rsT (t : List Nibble) : Statement (.rsT t) := fun _ _ h => nomatch h
theorem frSync : Statement .frSync := fun m c h => event m c h
theorem frCut (b : Byte) : Statement (.frCut b) := fun _ c h => event b c h
theorem frAppend (b : Byte) : Statement (.frAppend b) := fun _ c h => event b c h
theorem frFlush : Statement .frFlush := fun _ _ h => nomatch h
theorem frClose : Statement .frClose := fun _ _ h => nomatch h
theorem valAccept (f : ValidFrame) : Statement (.valAccept f) := by
  intro m c h
  cases h
  exact candidate _
theorem valReject (f : Frame) : Statement (.valReject f) := by
  intro m c h
  cases h
  exact candidate _
theorem unpId (f : ValidFrame) : Statement (.unpId f) := by
  intro m c h
  cases h
  exact candidate _
theorem unpCnt (f : ValidFrame) : Statement (.unpCnt f) := by
  intro m c h
  cases h
  exact candidate _
theorem unpScaled (f : ValidFrame) : Statement (.unpScaled f) := by
  intro m c h
  cases h
  exact candidate _
theorem unpHexcat (f : ValidFrame) : Statement (.unpHexcat f) := by
  intro m c h
  cases h
  exact candidate _

end Sys2Proof.Laws.EncodingFits
end

