-- ==== Sys2Proof/Laws/Encoding.lean ====
section
/-! SUPPORT. The formats of spec/30_encoding.md: a word and its fields determine each other. -/

namespace Sys2Proof

open Machine

/-- An input event word is its `end` bit and its `data` bits (R70). -/
theorem eventWord_split (w : EventWord) : w = BitVec.ofBool w.msb ++ w.extractLsb' 0 8 := by
  revert w; decide

theorem unitWord_toNat (u : Byte) : (unitWord u).toNat = u.toNat := by
  revert u; decide

/-- Every word of 9 bits selects an operation (R85, R89). -/
theorem decode_event (m : Byte) (phase : Phase) (err : Err) (isFull : Bool) (w : EventWord) :
    decode m (.event phase err isFull) 9 w.toNat = .ok (decodeEvent m phase err isFull w) := by
  have hw : ¬ 2 ^ 9 ≤ w.toNat := by have := w.isLt; omega
  simp only [decode]
  rw [if_neg (by simp), if_neg hw]
  simp

/-- A candidate is read back from its word (R73, R74). -/
theorem candidateOfWord_wordOfCandidate (f : Frame) :
    candidateOfWord (wordOfCandidate f).nbits (wordOfCandidate f).word = some f := by
  cases f with
  | empty => rfl
  | one a => simp [wordOfCandidate, candidateOfWord]
  | two a b =>
    simp only [wordOfCandidate, candidateOfWord, BitVec.toNat_append]
    have := a.isLt; have := b.isLt
    congr 2 <;> apply BitVec.eq_of_toNat_eq <;>
      rw [← Nat.shiftLeft_add_eq_or_of_lt b.isLt] <;> simp [Nat.shiftLeft_eq] <;> omega
  | three a b c =>
    have := a.isLt; have := b.isLt; have := c.isLt
    simp only [wordOfCandidate, candidateOfWord, BitVec.toNat_append]
    congr 2 <;> apply BitVec.eq_of_toNat_eq <;>
      rw [← Nat.shiftLeft_add_eq_or_of_lt c.isLt, ← Nat.shiftLeft_add_eq_or_of_lt b.isLt] <;>
      simp [Nat.shiftLeft_eq] <;> omega
  | four a b c d =>
    have := a.isLt; have := b.isLt; have := c.isLt; have := d.isLt
    simp only [wordOfCandidate, candidateOfWord, BitVec.toNat_append]
    congr 2 <;> apply BitVec.eq_of_toNat_eq <;>
      rw [← Nat.shiftLeft_add_eq_or_of_lt d.isLt, ← Nat.shiftLeft_add_eq_or_of_lt c.isLt,
        ← Nat.shiftLeft_add_eq_or_of_lt b.isLt] <;>
      simp [Nat.shiftLeft_eq] <;> omega

/-- A word that is read as a candidate is the candidate's word. -/
theorem wordOfCandidate_of_candidateOfWord (n w : Nat) (f : Frame) (h : candidateOfWord n w = some f)
    (hw : w < 2 ^ n) : wordOfCandidate f = ⟨n, w⟩ := by
  unfold candidateOfWord at h
  split at h
  · simp only [Option.some.injEq] at h; subst h; simp [wordOfCandidate]; omega
  · simp only [Option.some.injEq] at h; subst h; simp [wordOfCandidate]; omega
  · simp only [Option.some.injEq] at h; subst h
    simp only [wordOfCandidate, Code.mk.injEq, true_and, BitVec.toNat_append]
    rw [← Nat.shiftLeft_add_eq_or_of_lt (BitVec.isLt _)]
    simp [Nat.shiftLeft_eq]; omega
  · simp only [Option.some.injEq] at h; subst h
    simp only [wordOfCandidate, Code.mk.injEq, true_and, BitVec.toNat_append]
    rw [← Nat.shiftLeft_add_eq_or_of_lt (BitVec.isLt _), ← Nat.shiftLeft_add_eq_or_of_lt (BitVec.isLt _)]
    simp [Nat.shiftLeft_eq]; omega
  · simp only [Option.some.injEq] at h; subst h
    simp only [wordOfCandidate, Code.mk.injEq, true_and, BitVec.toNat_append]
    rw [← Nat.shiftLeft_add_eq_or_of_lt (BitVec.isLt _), ← Nat.shiftLeft_add_eq_or_of_lt (BitVec.isLt _),
      ← Nat.shiftLeft_add_eq_or_of_lt (BitVec.isLt _)]
    simp [Nat.shiftLeft_eq]; omega
  · simp at h

/-- A validated frame is read back from its word of format FRAME32. -/
theorem decodeFrame_of_fields (m : Byte) (v : ValidFrame) :
    decodeFrame m 32 (wordOfCandidate (frameOfFields m v)).word = .ok v := by
  have h1 : candidateOfWord 32 (wordOfCandidate (frameOfFields m v)).word = some (frameOfFields m v) :=
    candidateOfWord_wordOfCandidate (frameOfFields m v)
  have h2 : (wordOfCandidate (frameOfFields m v)).word < 2 ^ 32 :=
    Sys2Proof.Laws.EncodingFits.candidate (frameOfFields m v)
  unfold decodeFrame
  rw [if_neg (by simp), if_neg (by omega), h1]
  simp [validated_frameOfFields]

end Sys2Proof
end

