-- ==== Sys2Proof/Laws/Framer.lean ====
section
/-! SUPPORT. What closing a frame can do, what one octet does, and the replay of a sequence as the closing
of its candidate frames (R130 to R138, R193). -/

namespace Sys2Proof.Machine

/-! ### Accepting and closing -/

theorem acceptFrame_of_error (s : State) (f : ValidFrame) (h : s.err ≠ .ok) :
    s.acceptFrame f = { s with accepted := satInc s.accepted } := by
  simp [State.acceptFrame, h]

theorem acceptFrame_of_record (s : State) (f : ValidFrame) (r : SensorRecord) (h : s.err = .ok)
    (hr : unpack s.params.marker s.cfgL.mode f = some r) :
    s.acceptFrame f =
      { s with accepted := satInc s.accepted, trace := s.trace ++ [.out (.record r)] } := by
  simp [State.acceptFrame, h, State.decodeFrame, hr, State.emit]

theorem acceptFrame_of_fail (s : State) (f : ValidFrame) (h : s.err = .ok)
    (hr : unpack s.params.marker s.cfgL.mode f = none) :
    s.acceptFrame f = { s with accepted := satInc s.accepted, err := .decodeFailure } := by
  simp [State.acceptFrame, h, State.decodeFrame, hr]

theorem closeFrame_of_rejected (s : State) (h : validated s.params.marker s.frame = none) :
    s.closeFrame = { s with total := satInc s.total, frame := .empty } := by
  simp [State.closeFrame, h]

theorem closeFrame_of_accepted (s : State) (f : ValidFrame)
    (h : validated s.params.marker s.frame = some f) :
    s.closeFrame = { { s with total := satInc s.total }.acceptFrame f with frame := .empty } := by
  simp [State.closeFrame, h]

/-- Everything `VAL.ACCEPT` can do. -/
theorem acceptFrame_cases (s : State) (f : ValidFrame) :
    (s.err ≠ .ok ∧ s.acceptFrame f = { s with accepted := satInc s.accepted }) ∨
    (∃ r, s.err = .ok ∧ unpack s.params.marker s.cfgL.mode f = some r ∧ s.acceptFrame f =
      { s with accepted := satInc s.accepted, trace := s.trace ++ [.out (.record r)] }) ∨
    (s.err = .ok ∧ unpack s.params.marker s.cfgL.mode f = none ∧
      s.acceptFrame f = { s with accepted := satInc s.accepted, err := .decodeFailure }) := by
  by_cases h : s.err = .ok
  · cases hr : unpack s.params.marker s.cfgL.mode f with
    | some r => exact .inr (.inl ⟨r, h, rfl, acceptFrame_of_record s f r h hr⟩)
    | none => exact .inr (.inr ⟨h, rfl, acceptFrame_of_fail s f h hr⟩)
  · exact .inl ⟨h, acceptFrame_of_error s f h⟩

/-- Everything `FR.CLOSE` can do (R134). -/
theorem closeFrame_cases (s : State) :
    (validated s.params.marker s.frame = none ∧
      s.closeFrame = { s with total := satInc s.total, frame := .empty }) ∨
    ∃ f, validated s.params.marker s.frame = some f ∧
      ((s.err ≠ .ok ∧ s.closeFrame =
          { s with total := satInc s.total, accepted := satInc s.accepted, frame := .empty }) ∨
        (∃ r, s.err = .ok ∧ unpack s.params.marker s.cfgL.mode f = some r ∧ s.closeFrame =
          { s with total := satInc s.total, accepted := satInc s.accepted, frame := .empty,
                   trace := s.trace ++ [.out (.record r)] }) ∨
        (s.err = .ok ∧ unpack s.params.marker s.cfgL.mode f = none ∧ s.closeFrame =
          { s with total := satInc s.total, accepted := satInc s.accepted, frame := .empty,
                   err := .decodeFailure })) := by
  cases h : validated s.params.marker s.frame with
  | none => exact .inl ⟨rfl, closeFrame_of_rejected s h⟩
  | some f =>
    refine .inr ⟨f, rfl, ?_⟩
    rw [closeFrame_of_accepted s f h]
    rcases acceptFrame_cases { s with total := satInc s.total } f with
      ⟨he, ha⟩ | ⟨r, he, hr, ha⟩ | ⟨he, hr, ha⟩
    · exact .inl ⟨he, by rw [ha]⟩
    · exact .inr (.inl ⟨r, he, hr, by rw [ha]⟩)
    · exact .inr (.inr ⟨he, hr, by rw [ha]⟩)

/-- What `FR.CLOSE` leaves alone. -/
theorem closeFrame_unchanged (s : State) :
    s.closeFrame.params = s.params ∧ s.closeFrame.rst = s.rst ∧ s.closeFrame.pins = s.pins ∧
    s.closeFrame.input = s.input ∧ s.closeFrame.phase = s.phase ∧ s.closeFrame.cfgL = s.cfgL ∧
    s.closeFrame.sb = s.sb ∧ s.closeFrame.bus = s.bus ∧ s.closeFrame.frame = .empty := by
  rcases closeFrame_cases s with ⟨-, h⟩ | ⟨f, -, ⟨-, h⟩ | ⟨r, -, -, h⟩ | ⟨-, -, h⟩⟩ <;> simp [h]

@[simp] theorem closeFrame_params (s : State) : s.closeFrame.params = s.params :=
  (closeFrame_unchanged s).1
@[simp] theorem closeFrame_rst (s : State) : s.closeFrame.rst = s.rst :=
  (closeFrame_unchanged s).2.1
@[simp] theorem closeFrame_pins (s : State) : s.closeFrame.pins = s.pins :=
  (closeFrame_unchanged s).2.2.1
@[simp] theorem closeFrame_input (s : State) : s.closeFrame.input = s.input :=
  (closeFrame_unchanged s).2.2.2.1
@[simp] theorem closeFrame_phase (s : State) : s.closeFrame.phase = s.phase :=
  (closeFrame_unchanged s).2.2.2.2.1
@[simp] theorem closeFrame_cfgL (s : State) : s.closeFrame.cfgL = s.cfgL :=
  (closeFrame_unchanged s).2.2.2.2.2.1
@[simp] theorem closeFrame_sb (s : State) : s.closeFrame.sb = s.sb :=
  (closeFrame_unchanged s).2.2.2.2.2.2.1
@[simp] theorem closeFrame_bus (s : State) : s.closeFrame.bus = s.bus :=
  (closeFrame_unchanged s).2.2.2.2.2.2.2.1
@[simp] theorem closeFrame_frame (s : State) : s.closeFrame.frame = .empty :=
  (closeFrame_unchanged s).2.2.2.2.2.2.2.2

/-! ### One octet -/

/-- The state after the framer takes an octet. -/
def State.takeOctet (s : State) (b : Byte) : State :=
  match (if isSync s.params.marker b then none else frameAppend s.frame b) with
  | some f => { s with frame := f }
  | none => { s.closeFrame with frame := .one b }

/-- The framer takes every octet: one of `FR.SYNC`, `FR.CUT`, `FR.APPEND` applies, and none stops. -/
theorem framerStep_eq_next (b : Byte) (s : State) : framerStep b s = .next (s.takeOctet b) := by
  unfold framerStep State.takeOctet
  by_cases hs : isSync s.params.marker b = true
  · have hb : b = s.params.marker := by simpa [isSync] using hs
    rw [if_pos hs, if_pos hs, execFrSync, hb]
  · simp only [hs, if_false, Bool.false_eq_true]
    by_cases hf : full s.frame = true
    · simp [hf, execFrCut, (frameAppend_eq_none s.frame b).mpr hf]
    · cases ha : frameAppend s.frame b with
      | none => exact absurd ((frameAppend_eq_none s.frame b).mp ha) hf
      | some f => simp [hf, execFrAppend, ha]

/-- Everything one octet can do (R182). -/
theorem takeOctet_cases (s : State) (b : Byte) :
    (b ≠ s.params.marker ∧ frameLen s.frame ≠ 4 ∧
      ∃ f, frameAppend s.frame b = some f ∧ s.takeOctet b = { s with frame := f }) ∨
    ((b = s.params.marker ∨ frameLen s.frame = 4) ∧
      s.takeOctet b = { s.closeFrame with frame := .one b }) := by
  unfold State.takeOctet
  by_cases hs : b = s.params.marker
  · exact .inr ⟨.inl hs, by simp [isSync, hs]⟩
  · cases ha : frameAppend s.frame b with
    | none =>
      exact .inr ⟨.inr ((full_iff _).mp ((frameAppend_eq_none _ _).mp ha)), by simp [isSync, hs]⟩
    | some f =>
      have hf : ¬ full s.frame = true := fun hf => by
        rw [(frameAppend_eq_none s.frame b).mpr hf] at ha
        simp at ha
      exact .inl ⟨hs, fun h => hf ((full_iff _).mpr h), f, rfl, by simp [isSync, hs]⟩

theorem replay_eq_next (octets : List Byte) (s : State) :
    replay octets s = .next (octets.foldl State.takeOctet s) := by
  induction octets generalizing s with
  | nil => rfl
  | cons b rest ih => simp [replay, framerStep_eq_next, andThen, ih]

/-! ### A sequence as its candidate frames -/

/-- The state after a candidate, given as octets, is closed. It does not depend on the open frame. -/
def State.absorb (s : State) (f : List Byte) : State :=
  { s with frame := (frameOfOctets f).getD .empty }.closeFrame

theorem closeFrame_eq_absorb (s : State) : s.closeFrame = s.absorb (frameOctets s.frame) := by
  simp [State.absorb]

theorem absorb_frame_irrelevant (s : State) (g : Frame) (f : List Byte) :
    { s with frame := g }.absorb f = s.absorb f := rfl

theorem frameLoop_ne_nil (marker : Byte) (cur s : List Byte) : frameLoop marker cur s ≠ [] := by
  induction s generalizing cur with
  | nil => simp [frameLoop]
  | cons b rest ih =>
    rw [frameLoop]
    split
    · simp
    · exact ih _

/-- Closing a list of candidates does not depend on the frame open before. -/
theorem foldl_absorb_frame (fs : List (List Byte)) (s : State) (g : Frame) (hne : fs ≠ []) :
    fs.foldl State.absorb { s with frame := g } = fs.foldl State.absorb s := by
  cases fs with
  | nil => exact absurd rfl hne
  | cons f rest => rw [List.foldl_cons, List.foldl_cons, absorb_frame_irrelevant]

/-- `FR.CLOSE` sees exactly the candidates of R137. -/
theorem foldl_takeOctet_closeFrame (octets : List Byte) (s : State) :
    (octets.foldl State.takeOctet s).closeFrame =
      (frameLoop s.params.marker (frameOctets s.frame) octets).foldl State.absorb s := by
  induction octets generalizing s with
  | nil => simp [frameLoop, closeFrame_eq_absorb]
  | cons b rest ih =>
    rw [List.foldl_cons, ih, frameLoop]
    rcases takeOctet_cases s b with ⟨hb, hl, f, ha, ht⟩ | ⟨hor, ht⟩
    · have hcond : ¬ (b = s.params.marker ∨ (frameOctets s.frame).length = frameWidth) := by
        simp [hb, hl]
      rw [if_neg hcond, ht, ← frameOctets_append _ _ _ ha]
      exact foldl_absorb_frame _ s f (frameLoop_ne_nil _ _ _)
    · have hcond : b = s.params.marker ∨ (frameOctets s.frame).length = frameWidth := by
        simpa using hor
      rw [if_pos hcond, ht, List.foldl_cons, ← closeFrame_eq_absorb]
      have h := foldl_absorb_frame (frameLoop s.params.marker [b] rest) s.closeFrame (.one b)
        (frameLoop_ne_nil _ _ _)
      simpa [frameOctets] using h

/-- Closing a list of candidates: the counts, the records up to the first `Fail`, and the error. -/
theorem foldl_absorb (fs : List (List Byte)) (s : State) (hne : fs ≠ []) :
    fs.foldl State.absorb s = { s with
      frame := .empty, total := satAdd s.total fs.length,
      accepted := satAdd s.accepted (fs.filterMap (validFrame s.params.marker)).length,
      err := if s.err = .ok then
        (unpackAll s.params.marker s.cfgL.mode (fs.filterMap (validFrame s.params.marker))).2 else s.err,
      trace := s.trace ++ if s.err = .ok then recordItems
        (unpackAll s.params.marker s.cfgL.mode (fs.filterMap (validFrame s.params.marker))).1 else [] } := by
  have key : ∀ (fs : List (List Byte)) (s : State), s.frame = .empty →
      fs.foldl State.absorb s = { s with
        total := satAdd s.total fs.length,
        accepted := satAdd s.accepted (fs.filterMap (validFrame s.params.marker)).length,
        err := if s.err = .ok then
          (unpackAll s.params.marker s.cfgL.mode (fs.filterMap (validFrame s.params.marker))).2 else s.err,
        trace := s.trace ++ if s.err = .ok then recordItems (unpackAll s.params.marker s.cfgL.mode
          (fs.filterMap (validFrame s.params.marker))).1 else [] } := by
    intro fs
    induction fs with
    | nil =>
      intro s _
      by_cases h : s.err = .ok <;> simp [unpackAll, h, recordItems]
      rw [← h]
    | cons f rest ih =>
      intro s hs
      have hv : validated s.params.marker ((frameOfOctets f).getD .empty) =
          validFrame s.params.marker f := by
        cases hf : frameOfOctets f <;>
          simp [validFrame, hf, validated, valid, lenOk, frameLen]
      have hframe : (s.absorb f).frame = .empty := closeFrame_frame _
      rw [List.foldl_cons, ih _ hframe]
      rcases closeFrame_cases { s with frame := (frameOfOctets f).getD .empty } with
        ⟨hn, hc⟩ | ⟨v, hsome, ⟨he, hc⟩ | ⟨r, he, hr, hc⟩ | ⟨he, hr, hc⟩⟩
      · simp only [hv] at hn
        have hc : s.absorb f = { s with total := satInc s.total, frame := .empty } := hc
        simp [hc, hn, satAdd_satInc, hs]
      all_goals
        simp only [hv] at hsome
      · have hc : s.absorb f = { s with
            total := satInc s.total, accepted := satInc s.accepted, frame := .empty } := hc
        have he : s.err ≠ .ok := he
        simp [hc, hsome, satAdd_satInc, hs, he]
      · have hc : s.absorb f = { s with
            total := satInc s.total, accepted := satInc s.accepted, frame := .empty,
            trace := s.trace ++ [.out (.record r)] } := hc
        have he : s.err = .ok := he
        have hr : unpack s.params.marker s.cfgL.mode v = some r := hr
        simp [hc, hsome, satAdd_satInc, hs, he, unpackAll, hr, recordItems]
      · have hc : s.absorb f = { s with
            total := satInc s.total, accepted := satInc s.accepted, frame := .empty,
            err := .decodeFailure } := hc
        have he : s.err = .ok := he
        have hr : unpack s.params.marker s.cfgL.mode v = none := hr
        simp [hc, hsome, satAdd_satInc, hs, he, unpackAll, hr, recordItems]
  rw [← foldl_absorb_frame fs s .empty hne, key fs { s with frame := .empty } rfl]

end Sys2Proof.Machine
end

