-- ==== Sys2Proof/Laws/Memory.lean ====
section
/-! SUPPORT. The stream buffer: read after write, the canonical form, and the dense form of R38. -/

namespace Sys2Proof.Machine

/-- A read after a write to the same address gives the octet written. -/
theorem Memory.read_write_same (m : Memory) (a : Nat) (v : Byte) : (m.write a v).read a = some v := by
  induction m with
  | nil => simp [Memory.write, Memory.read]
  | cons c rest ih =>
    obtain ⟨b, w⟩ := c
    simp only [Memory.write]
    split
    · simp [Memory.read]
    · split
      · simp [Memory.read]
      · rename_i h1 h2
        rw [Memory.read, if_neg (Ne.symm h2), ih]

/-- A write leaves every other address alone. -/
theorem Memory.read_write_other (m : Memory) (a a' : Nat) (v : Byte) (h : a' ≠ a) :
    (m.write a v).read a' = m.read a' := by
  induction m with
  | nil => simp [Memory.write, Memory.read, Ne.symm h]
  | cons c rest ih =>
    obtain ⟨b, w⟩ := c
    simp only [Memory.write]
    split
    · simp [Memory.read, Ne.symm h]
    · split
      · rename_i h1 h2
        subst h2
        simp [Memory.read, Ne.symm h]
      · simp [Memory.read, ih]

theorem Memory.mem_write (m : Memory) (a : Nat) (v : Byte) (c : Host.Cell) (h : c ∈ m.write a v) :
    c = (a, v) ∨ c ∈ m := by
  induction m with
  | nil => simpa [Memory.write] using h
  | cons d rest ih =>
    obtain ⟨b, w⟩ := d
    simp only [Memory.write] at h
    split at h
    · simpa using h
    · split at h
      · rcases List.mem_cons.mp h with h | h
        · exact .inl h
        · exact .inr (List.mem_cons_of_mem _ h)
      · rcases List.mem_cons.mp h with h | h
        · exact .inr (h ▸ List.mem_cons_self)
        · rcases ih h with h | h
          · exact .inl h
          · exact .inr (List.mem_cons_of_mem _ h)

theorem Memory.wf_cons (c : Host.Cell) (m : Memory) :
    Memory.wf (c :: m) = true ↔ (∀ d ∈ m, c.1 < d.1) ∧ Memory.wf m = true := by
  simp [Memory.wf]

/-- Every write keeps the canonical form: addresses strictly rising. -/
theorem Memory.wf_write (m : Memory) (a : Nat) (v : Byte) (h : m.wf = true) :
    (m.write a v).wf = true := by
  induction m with
  | nil => simp [Memory.write, Memory.wf]
  | cons c rest ih =>
    obtain ⟨b, w⟩ := c
    obtain ⟨hb, hr⟩ := (Memory.wf_cons _ _).mp h
    simp only [Memory.write]
    split
    · rename_i hab
      refine (Memory.wf_cons _ _).mpr ⟨fun d hd => ?_, h⟩
      rcases List.mem_cons.mp hd with rfl | hd
      · exact hab
      · exact Nat.lt_trans hab (hb d hd)
    · split
      · rename_i hab
        subst hab
        exact (Memory.wf_cons _ _).mpr ⟨hb, hr⟩
      · rename_i h1 h2
        refine (Memory.wf_cons _ _).mpr ⟨fun d hd => ?_, ih hr⟩
        rcases Memory.mem_write rest a v d hd with rfl | hd
        · exact Nat.lt_of_le_of_ne (Nat.le_of_not_lt h1) (Ne.symm h2)
        · exact hb d hd

/-- The reset state's memory has the canonical form. -/
theorem reset_memory_wf : State.reset.sb.wf = true := by decide

theorem Memory.dense_iff (m : Memory) : m.dense = true ↔ m.map Prod.fst = List.range m.length := by
  simp [Memory.dense]

/-- A dense memory is in canonical form. -/
theorem Memory.wf_of_dense (m : Memory) (h : m.dense = true) : m.wf = true := by
  have hp : (m.map Prod.fst).Pairwise (· < ·) := by
    rw [(Memory.dense_iff m).mp h]
    exact List.pairwise_lt_range
  simpa [Memory.wf, List.pairwise_map] using hp

theorem Memory.fst_lt_of_dense (m : Memory) (h : m.dense = true) (c : Host.Cell) (hc : c ∈ m) :
    c.1 < m.length := by
  have : c.1 ∈ m.map Prod.fst := List.mem_map_of_mem hc
  rw [(Memory.dense_iff m).mp h] at this
  simpa using this

theorem Memory.write_above (m : Memory) (a : Nat) (v : Byte) (h : ∀ c ∈ m, c.1 < a) :
    m.write a v = m ++ [(a, v)] := by
  induction m with
  | nil => rfl
  | cons c rest ih =>
    obtain ⟨b, w⟩ := c
    have hb : b < a := h _ List.mem_cons_self
    rw [Memory.write, if_neg (by omega), if_neg (by omega),
      ih fun d hd => h d (List.mem_cons_of_mem _ hd)]
    rfl

/-- Storing at `COUNT` lists one cell more, after the others (R65). -/
theorem Memory.write_dense (m : Memory) (v : Byte) (h : m.dense = true) :
    m.write m.length v = m ++ [(m.length, v)] :=
  m.write_above _ v fun c hc => m.fst_lt_of_dense h c hc

theorem Memory.dense_append (m : Memory) (v : Byte) (h : m.dense = true) :
    Memory.dense (m ++ [(m.length, v)]) = true := by
  rw [Memory.dense_iff] at *
  simp [h, List.range_succ]

theorem Memory.read_offset (m : Memory) (k i : Nat) (h : m.map Prod.fst = List.range' k m.length) :
    m.read (k + i) = m[i]?.map Prod.snd := by
  induction m generalizing k i with
  | nil => rfl
  | cons c rest ih =>
    obtain ⟨b, w⟩ := c
    simp only [List.map_cons, List.length_cons, List.range'_succ, List.cons.injEq] at h
    obtain ⟨rfl, hr⟩ := h
    cases i with
    | zero => simp [Memory.read]
    | succ i =>
      rw [Memory.read, if_neg (by omega)]
      have := ih (b + 1) i hr
      rw [show b + (i + 1) = b + 1 + i by omega, this]
      rfl

/-- In the dense form, the cell at an address is the cell at that position. -/
theorem Memory.read_dense (m : Memory) (i : Nat) (h : m.dense = true) :
    m.read i = m[i]?.map Prod.snd := by
  have := m.read_offset 0 i (by rw [(Memory.dense_iff m).mp h, List.range_eq_range'])
  simpa using this

/-- `MemRead` in the dense form (R64). -/
theorem State.memRead_dense (s : State) (i : Nat) (h : s.sb.dense = true) :
    s.memRead i = s.sb[i]?.map Prod.snd := by
  unfold State.memRead
  split
  · exact s.sb.read_dense i h
  · rename_i hi
    rw [State.count_eq, Nat.not_lt] at hi
    simp [List.getElem?_eq_none hi]

theorem gather_of_getElem {α : Type} (f : Nat → Option α) (xs : List α) (n : Nat) (hn : n ≤ xs.length)
    (h : ∀ i < n, f i = xs[i]?) : gather f n = some (xs.take n) := by
  induction n with
  | zero => rfl
  | succ n ih =>
    have hlt : n < xs.length := hn
    rw [gather, ih (by omega) fun i hi => h i (by omega), h n (by omega), List.getElem?_eq_getElem hlt]
    rw [List.take_add_one, List.getElem?_eq_getElem hlt]
    rfl

/-- The octets of the stream are the cells, in order (R189). -/
theorem State.bufOctets_dense (s : State) (h : s.sb.dense = true) (ht : s.cfgL.text = false) :
    s.bufOctets = some (s.sb.map Prod.snd) := by
  unfold State.bufOctets
  rw [gather_of_getElem _ (s.sb.map Prod.snd) s.count (by simp [State.count])]
  · simp [State.count]
  · intro i _
    simp [State.loadOctet, ht, s.memRead_dense i h]

/-- The character values of the stream are bits 3:0 of the cells, in order (R189). -/
theorem State.bufChars_dense (s : State) (h : s.sb.dense = true) :
    s.bufChars = some (s.sb.map fun c => loNibble c.2) := by
  unfold State.bufChars
  rw [gather_of_getElem _ (s.sb.map fun c => loNibble c.2) s.count (by simp [State.count])]
  · simp [State.count]
  · intro i _
    simp [State.loadChar, s.memRead_dense i h, Option.map_map, Function.comp_def]

end Sys2Proof.Machine
end

