-- ==== Sys2Proof/Laws/Resync.lean ====
section
/-! SUPPORT. The detector and the windows (R110 to R121). -/

namespace Sys2Proof.Machine

theorem least_eq_none (p : Nat → Bool) (n : Nat) : least p n = none ↔ ∀ i < n, p i = false := by
  induction n with
  | zero => simp [least]
  | succ n ih =>
    rw [least]
    cases h : least p n with
    | some j =>
      have : ¬ ∀ i < n, p i = false := fun hall => by simp [ih.mpr hall] at h
      simp only [reduceCtorEq, false_iff]
      exact fun hall => this fun i hi => hall i (by omega)
    | none =>
      have hall := ih.mp h
      by_cases hp : p n = true
      · simp only [hp, if_true, reduceCtorEq, false_iff]
        exact fun hall' => by simp [hall' n (by omega)] at hp
      · simp only [hp, if_false, true_iff, Bool.false_eq_true]
        intro i hi
        rcases Nat.lt_succ_iff_lt_or_eq.mp hi with hi | rfl
        · exact hall i hi
        · simpa using hp

theorem least_eq_some (p : Nat → Bool) (n i : Nat) :
    least p n = some i ↔ i < n ∧ p i = true ∧ ∀ j < i, p j = false := by
  induction n with
  | zero => simp [least]
  | succ n ih =>
    rw [least]
    cases h : least p n with
    | some k =>
      have hk := (least_eq_none p n).not.mp (by simp [h])
      simp only [Option.some.injEq]
      constructor
      · rintro rfl
        obtain ⟨h1, h2, h3⟩ := ih.mp h
        exact ⟨by omega, h2, h3⟩
      · rintro ⟨h1, h2, h3⟩
        by_cases hin : i < n
        · have := ih.mpr ⟨hin, h2, h3⟩
          rw [h] at this
          exact Option.some.inj this
        · exact absurd (fun j hj => h3 j (by omega)) hk
    | none =>
      have hall := (least_eq_none p n).mp h
      by_cases hp : p n = true
      · simp only [hp, if_true, Option.some.injEq]
        constructor
        · rintro rfl
          exact ⟨by omega, hp, hall⟩
        · rintro ⟨h1, h2, h3⟩
          by_contra hne
          have := hall i (by omega)
          simp [h2] at this
      · simp only [hp, if_false, reduceCtorEq, false_iff, Bool.false_eq_true]
        rintro ⟨h1, h2, h3⟩
        rcases Nat.lt_succ_iff_lt_or_eq.mp h1 with hi | rfl
        · simp [hall i hi] at h2
        · exact hp h2

theorem greatest_eq_none (p : Nat → Bool) (n : Nat) : greatest p n = none ↔ ∀ i < n, p i = false := by
  induction n with
  | zero => simp [greatest]
  | succ n ih =>
    rw [greatest]
    by_cases hp : p n = true
    · simp only [hp, if_true, reduceCtorEq, false_iff]
      exact fun hall => by simp [hall n (by omega)] at hp
    · simp only [hp, if_false, ih, Bool.false_eq_true]
      constructor
      · intro hall i hi
        rcases Nat.lt_succ_iff_lt_or_eq.mp hi with hi | rfl
        · exact hall i hi
        · simpa using hp
      · exact fun hall i hi => hall i (by omega)

theorem greatest_eq_some (p : Nat → Bool) (n i : Nat) :
    greatest p n = some i ↔ i < n ∧ p i = true ∧ ∀ j, i < j → j < n → p j = false := by
  induction n with
  | zero => simp [greatest]
  | succ n ih =>
    rw [greatest]
    by_cases hp : p n = true
    · simp only [hp, if_true, Option.some.injEq]
      constructor
      · rintro rfl
        exact ⟨by omega, hp, fun j h1 h2 => by omega⟩
      · rintro ⟨h1, h2, h3⟩
        by_contra hne
        simp [h3 n (by omega) (by omega)] at hp
    · simp only [hp, if_false, ih, Bool.false_eq_true]
      constructor
      · rintro ⟨h1, h2, h3⟩
        refine ⟨by omega, h2, fun j hj hjn => ?_⟩
        rcases Nat.lt_succ_iff_lt_or_eq.mp hjn with hjn | rfl
        · exact h3 j hj hjn
        · simpa using hp
      · rintro ⟨h1, h2, h3⟩
        have : i ≠ n := fun h => hp (h ▸ h2)
        exact ⟨by omega, h2, fun j hj hjn => h3 j hj (by omega)⟩

/-- Both ends of the window exist, or neither (R112). -/
theorem greatest_isSome_of_least (p : Nat → Bool) (n i : Nat) (h : least p n = some i) :
    ∃ j, greatest p n = some j ∧ i ≤ j := by
  obtain ⟨h1, h2, h3⟩ := (least_eq_some p n i).mp h
  cases hg : greatest p n with
  | none => simp [(greatest_eq_none p n).mp hg i h1] at h2
  | some j =>
    obtain ⟨g1, g2, g3⟩ := (greatest_eq_some p n j).mp hg
    refine ⟨j, rfl, ?_⟩
    by_contra hlt
    simp [g3 i (by omega) h1] at h2

theorem syncAt_iff (marker : Byte) (s : List Byte) (i : Nat) :
    syncAt marker s i = true ↔ s[i]? = some marker := by
  unfold syncAt
  cases h : s[i]? <;> simp [isSync]

theorem isSyncText_iff (marker : Byte) (c : Nibble) (d : Option Nibble) :
    isSyncText marker c d = true ↔ c = hiNibble marker ∧ d = some (loNibble marker) := by
  simp [isSyncText]

/-- An occurrence lies wholly inside the text (R111). -/
theorem occText_iff (marker : Byte) (t : List Nibble) (i : Nat) :
    occText marker t i = true ↔
      t[i]? = some (hiNibble marker) ∧ t[i + 1]? = some (loNibble marker) := by
  unfold occText
  cases h : t[i]? <;> simp [isSyncText_iff]

theorem lt_length_of_occText (marker : Byte) (t : List Nibble) (i : Nat)
    (h : occText marker t i = true) : i + 1 < t.length := by
  have := ((occText_iff marker t i).mp h).2
  exact (List.getElem?_eq_some_iff.mp this).1

theorem slice_infix {α : Type} (s : List α) (a b : Nat) : slice s a b <:+: s :=
  (List.drop_suffix a _).isInfix.trans (List.take_prefix b s).isInfix

theorem slice_head {α : Type} (s : List α) (a b : Nat) (x : α) (h : s[a]? = some x) :
    slice s a b = [] ∨ (slice s a b).head? = some x := by
  by_cases hab : a < b
  · right
    simp only [slice, List.head?_drop, List.getElem?_take, hab, if_true, h]
  · left
    simp [slice]
    omega

theorem slice_all {α : Type} (s : List α) : slice s 0 s.length = s := by
  simp [slice]

/-- The byte window, by the ends R112 names. -/
theorem resyncBytes_of_ends (marker : Byte) (s : List Byte) (first last : Nat)
    (hf : firstB marker s = some first) (hl : lastB marker s = some last) :
    resyncBytes marker s = slice s first (windowEnd frameWidth 1 s.length last) := by
  simp [resyncBytes, hf, hl]

/-- No marker, empty window (R114). -/
theorem resyncBytes_of_noMarker (marker : Byte) (s : List Byte) (h : marker ∉ s) :
    resyncBytes marker s = [] := by
  have : firstB marker s = none := by
    refine (least_eq_none _ _).mpr fun i hi => ?_
    by_contra hs
    have := (syncAt_iff marker s i).mp (by simpa using hs)
    exact h (List.mem_of_getElem? this)
  simp [resyncBytes, this]

/-- The text window, by the ends R112 names. -/
theorem resyncText_of_ends (marker : Byte) (t : List Nibble) (first last : Nat)
    (hf : firstT marker t = some first) (hl : lastT marker t = some last) :
    resyncText marker t = some (slice t first (windowEnd textFrameWidth 2 t.length last)) := by
  simp [resyncText, hf, hl]

/-- `RS.T` gives `NoMarker` exactly when no index holds an occurrence (R116). -/
theorem resyncText_eq_none (marker : Byte) (t : List Nibble) :
    resyncText marker t = none ↔ ∀ i, occText marker t i = false := by
  constructor
  · intro h i
    by_contra hi
    have hi : occText marker t i = true := by simpa using hi
    have hlt := lt_length_of_occText marker t i hi
    cases hf : firstT marker t with
    | none => simp [(least_eq_none _ _).mp hf i (by omega)] at hi
    | some f =>
      obtain ⟨l, hl, -⟩ := greatest_isSome_of_least _ _ _ hf
      rw [resyncText_of_ends marker t f l hf hl] at h
      simp at h
  · intro h
    have : firstT marker t = none := (least_eq_none _ _).mpr fun i _ => h i
    simp [resyncText, this]

/-- When the first occurrence is at 0 and less than a frame follows the last, nothing is trimmed. -/
theorem windowEnd_eq_length (width markerLen n last : Nat) (h1 : n ≤ last + width)
    (h2 : n - last - markerLen < width) : windowEnd width markerLen n last = n := by
  unfold windowEnd
  simp only [h2, if_true]
  exact min_eq_right h1

end Sys2Proof.Machine
end

