-- ==== Sys2Proof/Laws/StreamControl.lean ====
section
/-! SUPPORT. Everything an event can do (R180 to R189), said once: the provers cite `step_event` and the
lemmas on `handleEvent` instead of unfolding the step. -/

namespace Sys2Proof.Machine

/-- `ST.END.S` in one line (R183). -/
theorem execStEndS_eq (s : State) : execStEndS s = .next (s.closeFrame.finish true) := rfl

/-- The end of R189 in one line. -/
theorem frameAll_eq (s : State) (octets : List Byte) :
    s.frameAll octets = .next ((octets.foldl State.takeOctet s).closeFrame.finish true) := by
  simp [State.frameAll, replay_eq_next, andThen, execStEndS_eq]

/-- A stream reported and its registers returned to their reset values. -/
def State.reported (s : State) (r : Result) : State :=
  { s with
    phase := .idle, frame := .empty, total := 0, accepted := 0, err := .ok, sb := [],
    trace := s.trace ++ r.events.map .out }

/-- A stream that fails before framing. -/
theorem finish_unframed (s : State) : s.finish false = s.reported (failedResult s.err) := rfl

theorem raise_finish_unframed (s : State) (e : Err) (h : s.err = .ok) :
    (s.raise e).finish false = s.reported (failedResult e) := by
  rw [s.raise_of_ok e h]
  rfl

/-- Framing, flushing and reporting a sequence is what R192's last part gives. -/
theorem frameAll_reported (s : State) (octets : List Byte) (hf : s.frame = .empty) (ht : s.total = 0)
    (ha : s.accepted = 0) (he : s.err = .ok) :
    s.frameAll octets =
      .next (s.reported (decodeOctets s.params.marker s.cfgL.mode octets)) := by
  rw [frameAll_eq, foldl_takeOctet_closeFrame, foldl_absorb _ _ (frameLoop_ne_nil _ _ _)]
  simp only [hf, ht, ha, he, satAdd_of_zero, if_true, State.finish, State.emit, State.reported,
    decodeOctets, frames, frameOctets, Result.events, recordItems, List.map_append, List.map_map,
    List.append_assoc]
  rfl

/-- The state in which an event is handled: the event is taken, and in IDLE the stream is started. -/
def State.opened (s : State) (pins : Cfg) (rest : List HostAct) : State :=
  if s.phase = .idle then (s.takeEvent pins rest).startStream else s.takeEvent pins rest

/-- The handling of an event by the row for `PHASE`, once a stream is in progress. -/
def handleEvent (fin : Bool) (data : Byte) (s : State) : Host.Outcome State Fault Refusal :=
  match s.phase with
  | .collect => collectEvent fin data s
  | _ => streamEvent fin data s

/-- A step on an event, for every `PHASE` (R85, R180). -/
theorem step_event (s : State) (pins : Cfg) (w : EventWord) (rest : List HostAct) (hr : s.rst = false)
    (hi : s.input = .event pins w :: rest) :
    step s = handleEvent w.msb (w.extractLsb' 0 8) (s.opened pins rest) := by
  unfold step
  rw [hi]
  simp only [hr, Bool.false_eq_true, if_false, State.operation, State.takeEvent_phase]
  unfold decodeEvent State.opened handleEvent
  cases hp : s.phase with
  | idle =>
    cases hpath : pathOf pins <;>
      simp only [exec, execStStart, State.takeEvent_pins, if_true, State.startStream_phase, hpath]
  | stream =>
    simp only [reduceCtorEq, if_false, State.takeEvent_phase, hp, streamEvent]
    cases hw : w.msb with
    | true => rfl
    | false =>
      simp only [Bool.false_eq_true, if_false, decodeOctet, framerStep]
      by_cases h1 : isSync (s.takeEvent pins rest).params.marker (w.extractLsb' 0 8) = true
      · simp only [h1, if_true, exec]
      · by_cases h2 : full (s.takeEvent pins rest).frame = true
        · simp only [h1, h2, if_true, if_false, exec, Bool.false_eq_true]
        · simp only [h1, h2, if_false, exec, Bool.false_eq_true]
  | collect =>
    simp only [reduceCtorEq, if_false, State.takeEvent_phase, hp, collectEvent, State.takeEvent_err]
    cases hw : w.msb with
    | true => rfl
    | false => by_cases he : s.err = .ok <;> simp [he, exec]

@[simp] theorem State.opened_rst (s : State) (p : Cfg) (rest : List HostAct) :
    (s.opened p rest).rst = s.rst := by
  unfold State.opened; split <;> rfl

@[simp] theorem State.opened_params (s : State) (p : Cfg) (rest : List HostAct) :
    (s.opened p rest).params = s.params := by
  unfold State.opened; split <;> rfl

@[simp] theorem State.opened_trace (s : State) (p : Cfg) (rest : List HostAct) :
    (s.opened p rest).trace = s.trace := by
  unfold State.opened; split <;> rfl

@[simp] theorem State.opened_input (s : State) (p : Cfg) (rest : List HostAct) :
    (s.opened p rest).input = rest := by
  unfold State.opened; split <;> rfl

theorem State.opened_of_idle (s : State) (p : Cfg) (rest : List HostAct) (h : s.phase = .idle) :
    s.opened p rest = (s.takeEvent p rest).startStream := if_pos h

theorem State.opened_of_busy (s : State) (p : Cfg) (rest : List HostAct) (h : s.phase ≠ .idle) :
    s.opened p rest = s.takeEvent p rest := if_neg h

theorem pathOf_ne_idle (c : Cfg) : pathOf c ≠ .idle := by
  unfold pathOf
  split <;> simp

theorem pathOf_eq (c : Cfg) :
    pathOf c = if c.text = false ∧ c.resyncAlways = false then .stream else .collect := by
  obtain ⟨m, t, r⟩ := c
  cases t <;> cases r <;> rfl

/-- An event is handled with a stream in progress. -/
theorem State.opened_phase_ne_idle (s : State) (p : Cfg) (rest : List HostAct) :
    (s.opened p rest).phase ≠ .idle := by
  unfold State.opened
  split
  · exact pathOf_ne_idle p
  · assumption

/-- What storing a unit can do (R65). -/
theorem execSbSt_cases (u : Byte) (s t : State) (h : execSbSt u s = .next t) :
    (depthReached s.params.bufDepth s.count = true ∧ t = s.raise .bufferOverflow) ∨
    (depthReached s.params.bufDepth s.count = false ∧ s.cfgL.text = true ∧ hexValue u = none ∧
      t = s.raise .badChar) ∨
    ∃ v, depthReached s.params.bufDepth s.count = false ∧
      cellExists s.params.bufDepth s.count = true ∧
      ((s.cfgL.text = true ∧ ∃ n, hexValue u = some n ∧ v = cellOfChar n) ∨
        (s.cfgL.text = false ∧ v = u)) ∧
      t = { s with sb := s.sb.write s.count v } := by
  have store : ∀ v, s.storeUnit v = .next t → cellExists s.params.bufDepth s.count = true ∧
      t = { s with sb := s.sb.write s.count v } := by
    intro v hv
    unfold State.storeUnit State.memWrite at hv
    by_cases hc : cellExists s.params.bufDepth s.count = true
    · simp only [hc, if_true, Host.Outcome.next.injEq] at hv
      exact ⟨hc, hv.symm⟩
    · simp [hc] at hv
  unfold execSbSt at h
  by_cases hd : depthReached s.params.bufDepth s.count = true
  · rw [if_pos hd, Host.Outcome.next.injEq] at h
    exact .inl ⟨hd, h.symm⟩
  · have hd' : depthReached s.params.bufDepth s.count = false := by simpa using hd
    rw [if_neg hd] at h
    by_cases ht : s.cfgL.text = true
    · rw [if_pos ht] at h
      cases hv : hexValue u with
      | none =>
        rw [hv] at h
        exact .inr (.inl ⟨hd', ht, rfl, (Host.Outcome.next.inj h).symm⟩)
      | some n =>
        rw [hv] at h
        obtain ⟨h1, h2⟩ := store _ h
        exact .inr (.inr ⟨_, hd', h1, .inl ⟨ht, n, rfl, rfl⟩, h2⟩)
    · rw [if_neg ht] at h
      obtain ⟨h1, h2⟩ := store _ h
      exact .inr (.inr ⟨_, hd', h1, .inr ⟨by simpa using ht, rfl⟩, h2⟩)

/-- What the end of a collected stream can do (R189). -/
theorem execStEndC_cases (s t : State) (h : execStEndC s = .next t) :
    (s.err ≠ .ok ∧ t = s.finish false) ∨
    (s.err = .ok ∧ t = (s.raise .malformedInput).finish false) ∨
    (s.err = .ok ∧ ∃ octets : List Byte,
      t = (octets.foldl State.takeOctet s).closeFrame.finish true) := by
  unfold execStEndC at h
  by_cases he : s.err = .ok
  · simp only [he, ne_eq, not_true_eq_false, if_false] at h
    have framed : ∀ octets, s.frameAll octets = .next t →
        t = (octets.foldl State.takeOctet s).closeFrame.finish true := fun octets ho => by
      rw [frameAll_eq] at ho
      exact (Host.Outcome.next.inj ho).symm
    split at h
    · unfold State.endText at h
      split at h
      · simp at h
      · split at h
        · split at h
          · exact .inr (.inl ⟨he, (Host.Outcome.next.inj h).symm⟩)
          · exact .inr (.inr ⟨he, _, framed _ h⟩)
        · split at h <;> exact .inr (.inr ⟨he, _, framed _ h⟩)
    · unfold State.endBytes at h
      split at h
      · simp at h
      · exact .inr (.inr ⟨he, _, framed _ h⟩)
  · simp only [ne_eq, he, not_false_eq_true, if_true, Host.Outcome.next.injEq] at h
    exact .inl ⟨he, h.symm⟩

/-- Everything an event can do, once a stream is in progress. -/
theorem handleEvent_cases (fin : Bool) (d : Byte) (c t : State) (h : handleEvent fin d c = .next t) :
    (c.phase ≠ .collect ∧ fin = true ∧ t = c.closeFrame.finish true) ∨
    (c.phase ≠ .collect ∧ fin = false ∧ t = c.takeOctet d) ∨
    (c.phase = .collect ∧ fin = true ∧ execStEndC c = .next t) ∨
    (c.phase = .collect ∧ fin = false ∧ c.err ≠ .ok ∧ t = c) ∨
    (c.phase = .collect ∧ fin = false ∧ c.err = .ok ∧ execSbSt d c = .next t) := by
  unfold handleEvent at h
  by_cases hp : c.phase = .collect
  · rw [hp] at h
    simp only [collectEvent] at h
    cases fin with
    | true => exact .inr (.inr (.inl ⟨hp, rfl, h⟩))
    | false =>
      by_cases he : c.err = .ok
      · simp [he] at h
        exact .inr (.inr (.inr (.inr ⟨hp, rfl, he, h⟩)))
      · simp [he, execStDiscard] at h
        exact .inr (.inr (.inr (.inl ⟨hp, rfl, he, h.symm⟩)))
  · have h' : streamEvent fin d c = .next t := by
      cases hq : c.phase <;> simp [hq] at h hp <;> exact h
    unfold streamEvent at h'
    cases fin with
    | true => exact .inl ⟨hp, rfl, (Host.Outcome.next.inj h').symm⟩
    | false =>
      rw [if_neg (by simp), framerStep_eq_next] at h'
      exact .inr (.inl ⟨hp, rfl, (Host.Outcome.next.inj h').symm⟩)

/-- One octet and the rest of the state. -/
theorem takeOctet_unchanged (s : State) (b : Byte) :
    (s.takeOctet b).params = s.params ∧ (s.takeOctet b).rst = s.rst ∧ (s.takeOctet b).pins = s.pins ∧
    (s.takeOctet b).input = s.input ∧ (s.takeOctet b).phase = s.phase ∧
    (s.takeOctet b).cfgL = s.cfgL ∧ (s.takeOctet b).sb = s.sb ∧ (s.takeOctet b).bus = s.bus ∧
    (s.takeOctet b).frame ≠ .empty := by
  rcases takeOctet_cases s b with ⟨-, -, f, hf, h⟩ | ⟨-, h⟩
  · rw [h]
    refine ⟨rfl, rfl, rfl, rfl, rfl, rfl, rfl, rfl, ?_⟩
    rintro rfl
    have := frameOctets_append _ _ _ hf
    simp [frameOctets] at this
  · simp [h]

theorem foldl_takeOctet_unchanged (octets : List Byte) (s : State) :
    (octets.foldl State.takeOctet s).params = s.params ∧
    (octets.foldl State.takeOctet s).rst = s.rst ∧
    (octets.foldl State.takeOctet s).pins = s.pins ∧
    (octets.foldl State.takeOctet s).input = s.input ∧
    (octets.foldl State.takeOctet s).cfgL = s.cfgL ∧
    (octets.foldl State.takeOctet s).bus = s.bus := by
  induction octets generalizing s with
  | nil => simp
  | cons b rest ih =>
    obtain ⟨h1, h2, h3, h4, -, h6, -, h8, -⟩ := takeOctet_unchanged s b
    simp [ih, h1, h2, h3, h4, h6, h8]

/-- What an error or a report leaves alone. -/
theorem raise_unchanged (s : State) (e : Err) : (s.raise e) = { s with err := (s.raise e).err } := by
  unfold State.raise
  split <;> rfl

end Sys2Proof.Machine
end

