-- ==== Sys2Proof/Laws/Step.lean ====
section
/-! SUPPORT. Everything a step can do, said once, and what the operations of a stream leave alone: the
provers of statements about steps cite these. -/

namespace Sys2Proof.Machine

/-- Everything a step that is taken can do. -/
theorem step_cases (s t : State) (h : step s = .next t) :
    (s.input = [] ∧ t = s) ∨
    (∃ rest, s.input = .reset true :: rest ∧ t = { s with input := rest }.assertReset) ∨
    (∃ rest, s.input = .reset false :: rest ∧ t = { s with input := rest }.releaseReset) ∨
    (∃ pins w rest, s.input = .event pins w :: rest ∧ s.rst = false ∧
      handleEvent w.msb (w.extractLsb' 0 8) (s.opened pins rest) = .next t) := by
  rcases hi : s.input with _ | ⟨a, rest⟩
  · simp only [step, hi, Host.Outcome.next.injEq] at h
    exact .inl ⟨rfl, h.symm⟩
  · cases a with
    | reset b =>
      cases b <;> simp only [step, hi, Host.Outcome.next.injEq] at h
      · exact .inr (.inr (.inl ⟨rest, rfl, h.symm⟩))
      · exact .inr (.inl ⟨rest, rfl, h.symm⟩)
    | event pins w =>
      by_cases hr : s.rst = true
      · simp [step, hi, hr] at h
      · have hr : s.rst = false := by simpa using hr
        rw [step_event s pins w rest hr hi] at h
        exact .inr (.inr (.inr ⟨pins, w, rest, rfl, hr, h⟩))

/-- What handling an event leaves alone. -/
theorem handleEvent_unchanged (fin : Bool) (d : Byte) (c t : State) (h : handleEvent fin d c = .next t) :
    t.params = c.params ∧ t.cfgL = c.cfgL ∧ t.rst = c.rst ∧ t.pins = c.pins ∧ t.input = c.input ∧
      t.bus = c.bus := by
  rcases handleEvent_cases fin d c t h with
    ⟨-, -, rfl⟩ | ⟨-, -, rfl⟩ | ⟨-, -, h⟩ | ⟨-, -, -, rfl⟩ | ⟨-, -, -, h⟩
  · simp
  · obtain ⟨h1, h2, h3, h4, -, h6, -, h8, -⟩ := takeOctet_unchanged c d
    simp [h1, h2, h3, h4, h6, h8]
  · rcases execStEndC_cases c t h with ⟨-, rfl⟩ | ⟨-, rfl⟩ | ⟨-, octets, rfl⟩
    · simp
    · simp
    · obtain ⟨h1, h2, h3, h4, h5, h6⟩ := foldl_takeOctet_unchanged octets c
      simp [h1, h2, h3, h4, h5, h6]
  · simp
  · rcases execSbSt_cases d c t h with ⟨-, rfl⟩ | ⟨-, -, -, rfl⟩ | ⟨v, -, -, -, rfl⟩ <;> simp

/-- The configuration the event is handled with. -/
theorem State.opened_cfgL (s : State) (pins : Cfg) (rest : List HostAct) :
    (s.opened pins rest).cfgL = if s.phase = .idle then pins else s.cfgL := by
  unfold State.opened
  split <;> rfl

/-! ### Closing and framing after an error, and what they emit -/

theorem closeFrame_of_error (s : State) (h : s.err ≠ .ok) :
    s.closeFrame.err = s.err ∧ s.closeFrame.trace = s.trace := by
  rcases closeFrame_cases s with ⟨-, hc⟩ | ⟨f, -, ⟨-, hc⟩ | ⟨r, he, -, hc⟩ | ⟨he, -, hc⟩⟩
  · simp [hc]
  · simp [hc]
  · exact absurd he h
  · exact absurd he h

theorem takeOctet_of_error (s : State) (b : Byte) (h : s.err ≠ .ok) :
    (s.takeOctet b).err = s.err ∧ (s.takeOctet b).trace = s.trace := by
  rcases takeOctet_cases s b with ⟨-, -, f, -, ht⟩ | ⟨-, ht⟩
  · simp [ht]
  · simp [ht, closeFrame_of_error s h]

theorem closeFrame_trace (s : State) :
    s.closeFrame.trace = s.trace ∨ ∃ r, s.closeFrame.trace = s.trace ++ [.out (.record r)] := by
  rcases closeFrame_cases s with ⟨-, hc⟩ | ⟨f, -, ⟨-, hc⟩ | ⟨r, he, -, hc⟩ | ⟨he, -, hc⟩⟩ <;> simp [hc]

theorem takeOctet_trace (s : State) (b : Byte) :
    (s.takeOctet b).trace = s.trace ∨ ∃ r, (s.takeOctet b).trace = s.trace ++ [.out (.record r)] := by
  rcases takeOctet_cases s b with ⟨-, -, f, -, ht⟩ | ⟨-, ht⟩
  · simp [ht]
  · simpa [ht] using closeFrame_trace s

/-! ### The end of a collected stream as one result -/

/-- The result of the stream whose units are the cells held (R189). -/
def State.endResult (s : State) : Result :=
  let chars := s.sb.map fun c => loNibble c.2
  if s.cfgL.text then
    if s.count % 2 = 1 then
      match resyncText s.params.marker chars with
      | none => failedResult .malformedInput
      | some w => decodeOctets s.params.marker s.cfgL.mode (hex2oct (trimEven w))
    else if s.cfgL.resyncAlways then
      decodeOctets s.params.marker s.cfgL.mode (resyncBytes s.params.marker (hex2oct chars))
    else decodeOctets s.params.marker s.cfgL.mode (hex2oct chars)
  else decodeOctets s.params.marker s.cfgL.mode (resyncBytes s.params.marker (s.sb.map Prod.snd))

/-- `ST.END.C` when collection went well: one report of that result. -/
theorem execStEndC_eq (s : State) (hd : s.sb.dense = true) (hf : s.frame = .empty) (ht : s.total = 0)
    (ha : s.accepted = 0) (he : s.err = .ok) :
    execStEndC s = .next (s.reported s.endResult) := by
  unfold execStEndC State.endResult
  simp only [he, ne_eq, not_true_eq_false, if_false]
  by_cases htx : s.cfgL.text = true
  · simp only [htx, if_true, State.endText, s.bufChars_dense hd]
    by_cases ho : s.count % 2 = 1
    · simp only [ho, if_true]
      cases resyncText s.params.marker (s.sb.map fun x => loNibble x.2) with
      | none => simp only; rw [raise_finish_unframed _ _ he]
      | some w => simp only; rw [frameAll_reported _ _ hf ht ha he]
    · simp only [ho, if_false]
      by_cases hr : s.cfgL.resyncAlways = true
      · simp only [hr, if_true]
        rw [frameAll_reported _ _ hf ht ha he]
      · simp only [hr]
        exact frameAll_reported _ _ hf ht ha he
  · have htx' : s.cfgL.text = false := by simpa using htx
    simp only [htx', State.endBytes, s.bufOctets_dense hd htx', Bool.false_eq_true, if_false]
    rw [frameAll_reported _ _ hf ht ha he]

/-! ### The host's side and the trace do not steer the framer -/

/-- The fields the host's next acts live in, replaced. -/
def State.withHost (s : State) (pins : Cfg) (input : List HostAct) : State :=
  { s with pins := pins, input := input, bus := none }

theorem State.takeEvent_eq_withHost (s : State) (pins : Cfg) (rest : List HostAct) :
    s.takeEvent pins rest = s.withHost pins rest := rfl

theorem closeFrame_withHost (s : State) (p : Cfg) (i : List HostAct) :
    (s.withHost p i).closeFrame = s.closeFrame.withHost p i := by
  unfold State.closeFrame State.withHost State.acceptFrame State.decodeFrame State.raise State.emit
  cases validated s.params.marker s.frame with
  | none => rfl
  | some f =>
    by_cases he : s.err = .ok
    · cases hu : unpack s.params.marker s.cfgL.mode f <;> simp [he, hu]
    · simp [he]

theorem takeOctet_withHost (s : State) (p : Cfg) (i : List HostAct) (b : Byte) :
    (s.withHost p i).takeOctet b = (s.takeOctet b).withHost p i := by
  unfold State.takeOctet
  rw [closeFrame_withHost]
  have h : (s.withHost p i).params = s.params ∧ (s.withHost p i).frame = s.frame := ⟨rfl, rfl⟩
  rw [h.1, h.2]
  split <;> rfl

/-- The trace, with earlier items before it. -/
def State.after (s : State) (earlier : List TraceItem) : State := { s with trace := earlier ++ s.trace }

theorem closeFrame_after (s : State) (e : List TraceItem) :
    (s.after e).closeFrame = s.closeFrame.after e := by
  unfold State.closeFrame State.after State.acceptFrame State.decodeFrame State.raise State.emit
  cases validated s.params.marker s.frame with
  | none => rfl
  | some f =>
    by_cases he : s.err = .ok
    · cases hu : unpack s.params.marker s.cfgL.mode f <;> simp [he, hu]
    · simp [he]

theorem takeOctet_after (s : State) (e : List TraceItem) (b : Byte) :
    (s.after e).takeOctet b = (s.takeOctet b).after e := by
  unfold State.takeOctet
  rw [closeFrame_after]
  have h : (s.after e).params = s.params ∧ (s.after e).frame = s.frame := ⟨rfl, rfl⟩
  rw [h.1, h.2]
  split <;> rfl

theorem finish_after (s : State) (e : List TraceItem) (framed : Bool) :
    (s.after e).finish framed = (s.finish framed).after e := by
  simp [State.finish, State.after, State.emit]

/-! ### Runs -/

/-- One step more of a run. -/
theorem run_succ (k : Nat) (s t : State) (h : step s = .next t) :
    Host.Core.run Sys2Proof.core (k + 1) s = Host.Core.run Sys2Proof.core k t := by
  simp only [Host.Core.run]
  have hs : Sys2Proof.core.step s = .next t := h
  rw [hs]

end Sys2Proof.Machine
end

