-- ==== Sys2Proof/Tests/Slice0.lean ====
section
/-! SUPPORT. The model's own tests: ill-formed terms refused, words written out from the encodings of
spec/30_encoding.md and spec/opcode_table.json, values from the vectors of spec/95_test_vectors.md (each
test names its vector), and a witness for the hypotheses of every statement. -/

namespace Sys2Proof.Tests

open Sys2Proof Sys2Proof.Machine

/-! ### Small states -/

/-- The state an outcome goes to. -/
def nextOf (o : Host.Outcome State Fault Refusal) : Option State :=
  match o with
  | .next s => some s
  | .fault _ => none
  | .refused _ => none

/-- A cut-through stream in progress with a frame open. -/
def streaming (f : Frame) : State := { State.reset with phase := .stream, frame := f }

/-- A store-and-forward stream in progress with cells collected. -/
def collecting (cfg : Cfg) (cells : Memory) : State :=
  { State.reset with phase := .collect, cfgL := cfg, sb := cells }

/-- `cfg 010`. -/
def textCfg : Cfg := ⟨.scaledInteger, true, false⟩

/-- `cfg 001`. -/
def resyncCfg : Cfg := ⟨.scaledInteger, false, true⟩

/-- The frame `80 01 00 39` of the source's own example (W3), and its fields. -/
def packet : Frame := .four 0x80 0x01 0x00 0x39

def packetFields : ValidFrame := ⟨1, 0x00, 0x39⟩

/-- The record of that frame in mode 0. -/
def packetRecord : SensorRecord := ⟨0x3830, 1, 57⟩

/-- Cells at the addresses 0, 1, 2, ... -/
def cells (k : Nat) : List Byte → Memory
  | [] => []
  | v :: rest => (k, v) :: cells (k + 1) rest

/-- The 19 characters of program P4 and vector ST-16, as they stand in `SB`. -/
def p4Cells : Memory :=
  cells 0 [0x0F, 8, 0, 0, 1, 0, 0, 3, 9, 8] ++ cells 10 [0, 0, 2, 0, 0, 6, 4, 8, 0]

/-- A state with one event offered. -/
def offered (s : State) (pins : Cfg) (w : EventWord) : State := { s with input := [.event pins w] }

/-! ### WellFormed refuses -/

theorem test_wellformed_hexPair_odd : WellFormed 0x80 (.hexPair [8, 0, 1]) = false := by decide
theorem test_wellformed_frCut_marker : WellFormed 0x80 (.frCut 0x80) = false := by decide
theorem test_wellformed_frAppend_marker : WellFormed 0x80 (.frAppend 0x80) = false := by decide
theorem test_wellformed_valReject_valid : WellFormed 0x80 (.valReject packet) = false := by decide
theorem test_wellformed_accepts :
    WellFormed 0x80 (.hexPair [8, 0]) = true ∧ WellFormed 0x80 (.frCut 0x81) = true ∧
    WellFormed 0x80 (.frAppend 0x00) = true ∧ WellFormed 0x80 (.valReject .empty) = true := by decide

/-! ### Decoding: one word per row that has an encoding, written out from the table -/

/-- The operation decoded, none where the word is refused. -/
def ok (x : Except Reject Instr) : Option Instr :=
  match x with
  | .ok i => some i
  | .error _ => none

/-- `edddddddd`: end 0, data 1000 0000; end 1. -/
theorem test_decode_stStart :
    ok (decode 0x80 (.event .idle .ok false) 9 0b010000000) = some (.stStart false 0x80) ∧
    ok (decode 0x80 (.event .idle .ok false) 9 0b100000001) = some (.stStart true 0x01) := by decide
/-- `0uuuuuuuu` in COLLECT after an error. -/
theorem test_decode_stDiscard :
    ok (decode 0x80 (.event .collect .badChar false) 9 0b010000000) = some (.stDiscard 0x80) := by decide
/-- `1xxxxxxxx` in STREAM. -/
theorem test_decode_stEndS :
    ok (decode 0x80 (.event .stream .ok true) 9 0b110000000) = some .stEndS := by decide
/-- `1xxxxxxxx` in COLLECT, whatever `ERR` is. -/
theorem test_decode_stEndC :
    ok (decode 0x80 (.event .collect .badChar false) 9 0b100000000) = some .stEndC := by decide
/-- `0uuuuuuuu` in COLLECT: the marker is stored like any unit. -/
theorem test_decode_sbSt :
    ok (decode 0x80 (.event .collect .ok false) 9 0b010000000) = some (.sbSt 0x80) := by decide
/-- `010000000` in STREAM wins over `FR.CUT` (R130). -/
theorem test_decode_frSync :
    ok (decode 0x80 (.event .stream .ok true) 9 0b010000000) = some .frSync := by decide
/-- `0bbbbbbbb` in STREAM, frame full. -/
theorem test_decode_frCut :
    ok (decode 0x80 (.event .stream .ok true) 9 0b010000001) = some (.frCut 0x81) := by decide
/-- `0bbbbbbbb` in STREAM, frame not full. -/
theorem test_decode_frAppend :
    ok (decode 0x80 (.event .stream .ok false) 9 0b000111001) = some (.frAppend 0x39) := by decide
/-- `cccccccc`: the code of `f`. -/
theorem test_decode_hexVal : ok (decode 0x80 .char 8 0b01100110) = some (.hexVal 0x66) := by decide
/-- `10000000`, the marker. -/
theorem test_decode_detB : ok (decode 0x80 .octet 8 0b10000000) = some (.detB 0x80) := by decide
/-- `1000 0000`, the two character values of the marker. -/
theorem test_decode_detT : ok (decode 0x80 .pair 8 0b10000000) = some (.detT 8 (some 0)) := by decide
/-- `10000000 0ccccccc hhhhhhhh llllllll`: counter 127, hi 0x12, lo 0x34. -/
theorem test_decode_valAccept :
    ok (decode 0x80 .close 32 0b10000000011111110001001000110100) =
      some (.valAccept ⟨127, 0x12, 0x34⟩) := by decide
/-- The same word with bit 23 set (VA-6's reason), and a candidate of two octets (VA-11). -/
theorem test_decode_valReject :
    ok (decode 0x80 .close 32 0b10000000111111110001001000110100) =
      some (.valReject (.four 0x80 0xFF 0x12 0x34)) ∧
    ok (decode 0x80 .close 16 0b1000000000000001) = some (.valReject (.two 0x80 0x01)) := by decide
theorem test_decode_unp :
    ok (decode 0x80 .identifier 32 0b10000000000000010000000000111001) = some (.unpId packetFields) ∧
    ok (decode 0x80 .counter 32 0b10000000000000010000000000111001) = some (.unpCnt packetFields) ∧
    ok (decode 0x80 (.pressure .scaledInteger) 32 0b10000000000000010000000000111001) =
      some (.unpScaled packetFields) ∧
    ok (decode 0x80 (.pressure .hexDigitConcatenation) 32 0b10000000000000010000000000111001) =
      some (.unpHexcat packetFields) := by decide
/-- Refusals by name: a wrong width, a bit too many, a frame that is not validated. -/
theorem test_decode_refuses :
    decode 0x80 (.event .stream .ok false) 8 0 = .error .width ∧
    decode 0x80 (.event .stream .ok false) 9 512 = .error .highBits ∧
    decode 0x80 .close 40 0 = .error .width ∧
    decode 0x80 .counter 32 0x80FF0000 = .error .notValidated := ⟨rfl, rfl, rfl, rfl⟩

/-- The words of the table that stand for themselves, and that the next step runs them after reset. -/
theorem test_table_words :
    decodeTableWord 16 0x080 = some .frSync ∧ decodeTableWord 16 0x001 = some (.frAppend 0x01) ∧
    decodeTableWord 16 0x100 = some .stEndS ∧ decodeTableWord 8 0x80 = some (.detB 0x80) ∧
    decodeTableWord 32 0x80000000 = some (.valAccept ⟨0, 0, 0⟩) := by decide
theorem test_fetch_sync :
    (nextOf (step (State.reset.withFetchWord 16 0x080))).map (fun s => (s.frame, s.total)) =
      some (.one 0x80, 1) := by decide
theorem test_fetch_accept :
    (nextOf (step (State.reset.withFetchWord 32 0x80010039))).map (fun s => (s.accepted, s.trace)) =
      some (1, [.out (.record packetRecord)]) := by decide

/-! ### Values, from spec/95_test_vectors.md -/

/-- HX-2, HX-5. -/
theorem test_hexVal :
    nextOf (exec (.hexVal 0x39) .reset) = some (State.reset.deliver (.hex (some 9))) ∧
    nextOf (exec (.hexVal 0x3A) .reset) = some (State.reset.deliver (.hex none)) := by decide
/-- HX-7. -/
theorem test_hexPair :
    (nextOf (exec (.hexPair [8, 0, 0, 1, 0, 0, 3, 9]) .reset)).map State.bus =
      some (some (.octets [0x80, 0x01, 0x00, 0x39])) := by decide
/-- HX-11, HX-13. -/
theorem test_hexTrim :
    (nextOf (exec (.hexTrim [8, 0, 0, 1, 0, 0, 3, 9, 8]) .reset)).map State.bus =
      some (some (.chars [8, 0, 0, 1, 0, 0, 3, 9])) ∧
    (nextOf (exec (.hexTrim [8]) .reset)).map State.bus = some (some (.chars [])) := by decide
/-- DT-1, DT-2. -/
theorem test_detB :
    (nextOf (exec (.detB 0x80) .reset)).map State.bus = some (some (.sync true)) ∧
    (nextOf (exec (.detB 0x81) .reset)).map State.bus = some (some (.sync false)) := by decide
/-- DT-3 at index 1, DT-6. -/
theorem test_detT :
    (nextOf (exec (.detT 8 (some 0)) .reset)).map State.bus = some (some (.sync true)) ∧
    (nextOf (exec (.detT 8 none) .reset)).map State.bus = some (some (.sync false)) := by decide
/-- RS-2. -/
theorem test_rsB_clamped :
    resyncBytes 0x80 [0x12, 0x34, 0x80, 1, 0, 0x39, 0x80, 2, 1, 0xF4, 0x80, 3] =
      [0x80, 1, 0, 0x39, 0x80, 2, 1, 0xF4, 0x80, 3] := by decide
/-- RS-4: tail 4 is not below 4. -/
theorem test_rsB_lost :
    (nextOf (exec (.rsB [0x80, 1, 0, 0x39, 0x55]) .reset)).map State.bus = some (some (.octets [])) := by
  decide
/-- RS-17: the search is at every character index. -/
theorem test_rsT_straddling :
    resyncText 0x80 [0, 8, 0, 1, 0, 0, 3, 9, 8, 0, 0, 2, 0, 0, 6, 4, 10] =
      some [8, 0, 1, 0, 0, 3, 9, 8, 0, 0, 2, 0, 0, 6, 4] := by decide
/-- RS-15. -/
theorem test_rsT_noMarker :
    (nextOf (exec (.rsT [1, 2, 3, 4, 5]) .reset)).map State.bus = some (some .noMarker) := by decide
/-- FO-2: one close, not two. -/
theorem test_frSync :
    (nextOf (exec .frSync (streaming packet))).map (fun s => (s.frame, s.total, s.trace)) =
      some (.one 0x80, 1, [.out (.record packetRecord)]) := by decide
/-- FO-4. -/
theorem test_frCut :
    (nextOf (exec (.frCut 0x04) (streaming (.four 0x80 1 2 3)))).map (fun s => (s.frame, s.accepted)) =
      some (.one 0x04, 1) := by decide
/-- FO-6. -/
theorem test_frAppend :
    (nextOf (exec (.frAppend 0x39) (streaming (.three 0x80 1 0)))).map (fun s => (s.frame, s.total)) =
      some (packet, 0) := by decide
/-- FO-7. -/
theorem test_frFlush :
    (nextOf (exec .frFlush (streaming (.two 0x80 5)))).map (fun s => (s.frame, s.total, s.accepted)) =
      some (.empty, 1, 0) := by decide
/-- FO-10: `ERR` 2, so no record. -/
theorem test_frClose_after_error :
    (nextOf (exec .frClose { streaming packet with err := .decodeFailure, total := 1 })).map
      (fun s => (s.total, s.accepted, s.trace)) = some (2, 1, []) := by decide
/-- FO-11. -/
theorem test_frClose_saturates :
    (nextOf (exec .frClose { streaming .empty with total := 0xFFFFFFFF })).map State.total =
      some 0xFFFFFFFF := by decide
/-- VA-2. -/
theorem test_valAccept :
    (nextOf (exec (.valAccept ⟨127, 0x12, 0x34⟩) .reset)).map (fun s => (s.accepted, s.trace)) =
      some (1, [.out (.record ⟨0x3830, 127, 4660⟩)]) := by decide
/-- VA-1, VA-4, VA-8, VA-12. -/
theorem test_valid :
    valid 0x80 (.four 0x80 0 0 0) = true ∧ valid 0x80 (.four 0x80 0x80 0x12 0x34) = false ∧
    valid 0x80 (.four 0x81 0x01 0x00 0x39) = false ∧ valid 0x80 (.four 0x90 0xFF 0 0) = false := by decide
/-- VA-10. -/
theorem test_valReject : nextOf (exec (.valReject .empty) .reset) = some .reset := by decide
/-- UN-19, UN-9. -/
theorem test_unp_id_cnt :
    (nextOf (exec (.unpId packetFields) .reset)).map State.bus = some (some (.ident 0x3830)) ∧
    (nextOf (exec (.unpCnt ⟨127, 0x12, 0x34⟩) .reset)).map State.bus = some (some (.count 127)) := by decide
/-- UN-6: the byte order. -/
theorem test_unpScaled :
    (nextOf (exec (.unpScaled ⟨1, 0x01, 0x00⟩) .reset)).map State.bus = some (some (.centi 256)) := by decide
/-- UN-11, UN-13. -/
theorem test_unpHexcat :
    (nextOf (exec (.unpHexcat ⟨2, 0x12, 0x05⟩) .reset)).map State.bus = some (some (.centi 1205)) ∧
    (nextOf (exec (.unpHexcat ⟨2, 0x1A, 0x39⟩) .reset)).map State.bus = some (some .fail) := by decide
/-- SB-2. -/
theorem test_sbSt_char :
    (nextOf (exec (.sbSt 0x46) (collecting textCfg [(0, 8)]))).map State.sb = some [(0, 8), (1, 0x0F)] := by
  decide
/-- ST-31: a full buffer and no hex character. -/
theorem test_sbSt_overflow_first :
    (nextOf (exec (.sbSt 0x67) { collecting textCfg (cells 0 [8, 0, 0, 1, 0, 0, 3]) with
      params := ⟨0x80, .cells 7⟩ })).map (fun s => (s.err, s.count)) = some (.bufferOverflow, 7) := by decide
/-- SB-7. -/
theorem test_sbLd :
    (nextOf (exec (.sbLd 0) (collecting textCfg [(0, 8), (1, 0)]))).map State.bus =
      some (some (.load (some 8) (some 0x80))) := by decide
/-- R180's example. -/
theorem test_stStart :
    (nextOf (exec (.stStart false 0x80) .reset)).map (fun s => (s.phase, s.frame)) =
      some (.stream, .one 0x80) := by decide
/-- ST-1 for `cfg 010`. -/
theorem test_stStart_end :
    (nextOf (exec (.stStart true 0) { State.reset with pins := textCfg })).map (fun s => (s.phase, s.trace)) =
      some (.idle, [.out (.done .ok 1 0)]) := by decide
/-- SB-6. -/
theorem test_stDiscard :
    nextOf (exec (.stDiscard 0x38) { collecting textCfg [(0, 8)] with err := .badChar }) =
      some { collecting textCfg [(0, 8)] with err := .badChar } := by decide
/-- R183's example. -/
theorem test_stEndS :
    (nextOf (exec .stEndS { streaming packet with total := 1 })).map (fun s => (s.phase, s.trace)) =
      some (.idle, [.out (.record packetRecord), .out (.done .ok 2 1)]) := by decide
/-- ST-16, step 20 of program P4. -/
theorem test_stEndC :
    (nextOf (exec .stEndC (collecting textCfg p4Cells))).map (fun s => (s.phase, s.trace)) =
      some (.idle, [.out (.record packetRecord), .out (.record ⟨0x3830, 2, 100⟩), .out (.done .ok 4 2)]) := by
  decide
/-- ST-18. -/
theorem test_stEndC_malformed :
    (nextOf (exec .stEndC (collecting textCfg (cells 0 [1, 2, 3, 4, 5])))).map State.trace =
      some [.out (.done .malformedInput 0 0)] := by decide
/-- R186. -/
theorem test_stDone :
    (nextOf (exec .stDone { streaming .empty with total := 3, accepted := 2 })).map
      (fun s => (s.phase, s.total, s.trace)) = some (.idle, 0, [.out (.done .ok 3 2)]) := by decide

/-- FR-9, C1's FR-8, ST-5, ST-20 and ST-26 of the whole engine. -/
theorem test_frames :
    frames 0x80 [0x12, 0x34, 0x80, 0x7F, 0xFF, 0xFF, 0x80, 0x80, 0, 0, 0x10, 0x80, 5] =
      [[0x12, 0x34], [0x80, 0x7F, 0xFF, 0xFF], [0x80], [0x80, 0, 0, 0x10], [0x80, 5]] ∧
    frames 0x80 [0x80, 0x80, 0x80] = [[], [0x80], [0x80], [0x80]] := by decide
theorem test_decodeStream_failure :
    decodeStream Params.reference ⟨.hexDigitConcatenation, false, false⟩
      [0x80, 1, 0, 0x39, 0x80, 2, 0x1A, 0x39, 0x80, 3, 0, 1] =
      ⟨[⟨0x3830, 1, 39⟩], .decodeFailure, 4, 3⟩ := by decide

/-! ### Witnesses: values that meet the hypotheses of each statement that has some -/

theorem witness_HexPairConvertsPairs :
    ([8, 0, 3, 9] : List Nibble).length % 2 = 0 ∧ ([8, 0, 3, 9] : List Nibble)[2 * 1]? = some 3 ∧
    ([8, 0, 3, 9] : List Nibble)[2 * 1 + 1]? = some 9 := by decide
theorem witness_DetTComparesPairWithMarker :
    ([15, 8, 0] : List Nibble)[1]? = some 8 ∧ ([15, 8, 0] : List Nibble)[1 + 1]? = some 0 ∧
    ([15, 8] : List Nibble)[1]? = some 8 ∧ ([15, 8] : List Nibble)[1 + 1]? = none := by decide
/-- Both sides of the 4-octet boundary: tail 3 (RS-5) and tail 4 (RS-4); two markers (RS-9); no marker
(RS-6). -/
theorem witness_RsBGivesWindow :
    (let s : List Byte := [0x80, 1, 0, 0x39];
      s[0]? = some State.reset.params.marker ∧ (∀ i > 0, s[i]? ≠ some State.reset.params.marker) ∧
        s.length - 0 - 1 = 3) ∧
    (let s : List Byte := [0x80, 1, 0, 0x39, 0x55];
      s[0]? = some State.reset.params.marker ∧ (∀ i > 0, s[i]? ≠ some State.reset.params.marker) ∧
        s.length - 0 - 1 = 4) ∧
    (let s : List Byte := [0x55, 0x80, 1, 0, 0x39, 0x80, 2, 1, 0xF4, 0x77];
      s[1]? = some State.reset.params.marker ∧ (∀ i < 1, s[i]? ≠ some State.reset.params.marker) ∧
        s[5]? = some State.reset.params.marker ∧ ∀ i > 5, s[i]? ≠ some State.reset.params.marker) ∧
    State.reset.params.marker ∉ ([1, 2, 3] : List Byte) := by
  refine ⟨⟨by decide, fun i hi => ?_, by decide⟩, ⟨by decide, fun i hi => ?_, by decide⟩,
    ⟨by decide, by decide, by decide, fun i hi => ?_⟩, by decide⟩
  · match i with
    | 1 | 2 | 3 => decide
    | n + 4 => simp
  · match i with
    | 1 | 2 | 3 | 4 => decide
    | n + 5 => simp
  · match i with
    | 6 | 7 | 8 | 9 => decide
    | n + 10 => simp
/-- Both sides of the 8-character boundary: tail 7 (RS-13) and tail 9 (RS-14), and tail 8; no occurrence. -/
theorem witness_RsTGivesWindow :
    (∀ t ∈ ([[8, 0, 0, 1, 0, 0, 3, 9, 1], [8, 0, 0, 1, 0, 0, 3, 9, 1, 2],
        [8, 0, 0, 1, 0, 0, 3, 9, 1, 2, 3]] : List (List Nibble)),
      occText State.reset.params.marker t 0 = true ∧
        ∀ i > 0, occText State.reset.params.marker t i = false) ∧
    ∀ i, occText State.reset.params.marker [0, 8, 10] i = false := by
  refine ⟨fun t ht => ⟨?_, fun i hi => ?_⟩, fun i => ?_⟩
  · revert t; decide
  · by_cases hlt : i < 11
    · have h : ∀ i < 11, 0 < i → ∀ t ∈ ([[8, 0, 0, 1, 0, 0, 3, 9, 1], [8, 0, 0, 1, 0, 0, 3, 9, 1, 2],
          [8, 0, 0, 1, 0, 0, 3, 9, 1, 2, 3]] : List (List Nibble)),
          occText State.reset.params.marker t i = false := by decide
      exact h i hlt hi t ht
    · have hl : t.length ≤ i := by
        have : ∀ t ∈ ([[8, 0, 0, 1, 0, 0, 3, 9, 1], [8, 0, 0, 1, 0, 0, 3, 9, 1, 2],
          [8, 0, 0, 1, 0, 0, 3, 9, 1, 2, 3]] : List (List Nibble)), t.length ≤ 11 := by decide
        exact (this t ht).trans (by omega)
      simp [occText, List.getElem?_eq_none hl]
  · match i with
    | 0 | 1 | 2 => decide
    | n + 3 => simp [occText]
theorem witness_ResyncKeepsCleanStreams : ([(1, 0, 0x39)] : List (Byte × Byte × Byte)) ≠ [] := by decide
/-- An ordinary window, and one of a single character: marker 0x11, `"111"` with a tail of 8. -/
theorem witness_WindowIsPartStartingAtMarker :
    resyncText 0x80 [8, 0, 10] = some [8, 0, 10] ∧
    resyncText 0x11 [1, 1, 1, 2, 3, 4, 5, 6, 7, 8, 9] = some [1] := by decide
/-- Each clause: counters 0x7F and 0x80 (the boundary), `ERR` 0 and 2, a record and `Fail`. -/
theorem witness_FrCloseCountsValidatesDecodes :
    (streaming (.four 0x80 0x7F 0x12 0x34)).frame = .four State.reset.params.marker 0x7F 0x12 0x34 ∧
    (0x7F : Byte).toNat ≤ 0x7F ∧
    (∀ b c d, (streaming (.four 0x80 0x80 0 0)).frame = .four State.reset.params.marker b c d →
      0x7F < b.toNat) ∧
    unpack 0x80 .hexDigitConcatenation ⟨127, 0x12, 0x34⟩ = some ⟨0x3830, 127, 1234⟩ ∧
    unpack 0x80 .hexDigitConcatenation ⟨2, 0x1A, 0x39⟩ = none ∧
    ({ streaming packet with err := .decodeFailure } : State).err ≠ .ok := by
  refine ⟨rfl, by decide, ?_, by decide, by decide, by decide⟩
  intro b c d h
  simp only [streaming, Frame.four.injEq] at h
  rw [← h.2.1]
  decide
theorem witness_FrAppendAddsOctet :
    frameLen (streaming .empty).frame < 4 ∧ frameLen (streaming (.three 0x80 1 0)).frame < 4 := by decide
theorem witness_FramerOperationsFrame :
    ∃ t, exec .frSync (streaming packet) = .next t ∧ t.trace = [.out (.record packetRecord)] :=
  ⟨_, rfl, by decide⟩
theorem witness_RoundTripFraming :
    (∀ f ∈ ([⟨127, 0x81, 0xFF⟩, ⟨0, 0x7F, 0⟩] : List ValidFrame),
      f.counter.setWidth 8 ≠ (0x80 : Byte) ∧ f.hi ≠ 0x80 ∧ f.lo ≠ 0x80) ∧
    ([⟨127, 0x81, 0xFF⟩, ⟨0, 0x7F, 0⟩] : List ValidFrame) ≠ [] := by decide
theorem witness_AcceptedFramesNeedMarkers : (0x80 : Byte) ∉ ([1, 2, 3] : List Byte) := by decide
/-- FR-6's packet, a record in a stream that also loses one (R239), and the least marker out of the
counter range. -/
theorem witness_PayloadMarkerLosesPacket :
    ((0x80 : Byte) = 0x80 ∧ (0x01 : Byte) ≠ 0x80) ∧
    (⟨0x3830, 5, 4386⟩ : SensorRecord) ∈
      (decodeOctets 0x80 .scaledInteger [0x80, 1, 0x80, 5, 0x11, 0x22]).recs ∧
    0x80 ≤ (0x80 : Byte).toNat := by decide
theorem witness_CloseSelectsValidatorRow :
    (0x7F : Byte).toNat ≤ 0x7F ∧
    ∀ b c d, (.four 0x80 0x80 0 0 : Frame) = .four 0x80 b c d → 0x7F < b.toNat := by
  refine ⟨by decide, ?_⟩
  intro b c d h
  simp only [Frame.four.injEq] at h
  rw [← h.2.1]
  decide
theorem witness_ValAcceptCountsAndDecodes :
    ({ State.reset with err := .decodeFailure } : State).err ≠ .ok ∧ State.reset.err = .ok ∧
    unpack State.reset.params.marker .scaledInteger packetFields = some packetRecord ∧
    unpack State.reset.params.marker .hexDigitConcatenation ⟨2, 0x1A, 0x39⟩ = none := by decide
theorem witness_ValRejectIsSilent :
    (streaming (.two 0x80 5)).frame = .two 0x80 5 ∧
    valid (streaming (.two 0x80 5)).params.marker (.two 0x80 5) = false := by decide
theorem witness_UnpIdIsMarkerText : State.reset.params.marker = 0x80 := by decide
theorem witness_UnpCntIsSecondOctet :
    validated State.reset.params.marker (.four 0x80 0x7F 0x12 0x34) = some ⟨127, 0x12, 0x34⟩ := by decide
theorem witness_UnpScaledIsBigEndian :
    validated State.reset.params.marker packet = some packetFields := by decide
/-- All four nibbles at the boundary 9, and one above it. -/
theorem witness_UnpHexcatReadsDecimalDigits :
    validated State.reset.params.marker (.four 0x80 3 0x99 0x99) = some ⟨3, 0x99, 0x99⟩ ∧
    (0x99 / 16 ≤ 9 ∧ 0x99 % 16 ≤ 9) ∧
    validated State.reset.params.marker (.four 0x80 4 0x00 0x0A) = some ⟨4, 0x00, 0x0A⟩ ∧
    ¬ (0x0A % 16 ≤ 9) := by decide
/-- Payloads 99 99 and 00 0A: the boundary of the decimal digits, and one above it. -/
theorem witness_UnpackGivesRecord :
    validated 0x80 (.four 0x80 3 0x99 0x99) = some ⟨3, 0x99, 0x99⟩ ∧ (0x99 / 16 ≤ 9 ∧ 0x99 % 16 ≤ 9) ∧
    validated 0x80 (.four 0x80 4 0x00 0x0A) = some ⟨4, 0x00, 0x0A⟩ ∧ ¬ (0x0A % 16 ≤ 9) := by decide
theorem witness_RecordDenotesPressure :
    validated 0x80 packet = some packetFields ∧
    unpack 0x80 .scaledInteger packetFields = some ⟨0x3830, 1, 57⟩ ∧
    unpack 0x80 .hexDigitConcatenation packetFields = some ⟨0x3830, 1, 39⟩ := by decide
/-- Each clause: exactly full, one below full with a character that is no hex digit, with one that is,
and an octet on the byte path. -/
theorem witness_SbStStoresOrRaises :
    (let s := { collecting textCfg [(0, 8)] with params := ⟨0x80, .cells 1⟩ };
      s.sb.dense = true ∧ withinDepth s.params.bufDepth s.count ∧
        ∃ n : ℕ+, s.params.bufDepth = .cells n ∧ s.count = (n : Nat)) ∧
    (let s := { collecting textCfg [(0, 8)] with params := ⟨0x80, .cells 2⟩ };
      s.sb.dense = true ∧ withinDepth s.params.bufDepth s.count ∧
        (∀ n : ℕ+, s.params.bufDepth = .cells n → s.count ≠ (n : Nat)) ∧
        s.cfgL.text = true ∧ isHex 0x67 = false ∧
        (hexValue 0x66 = some (loNibble 0x0F) ∧ hiNibble 0x0F = 0)) ∧
    (let s := collecting resyncCfg [(0, 0x80)];
      s.sb.dense = true ∧ withinDepth s.params.bufDepth s.count ∧
        (∀ n : ℕ+, s.params.bufDepth = .cells n → s.count ≠ (n : Nat)) ∧ s.cfgL.text = false) := by
  refine ⟨⟨by decide, Nat.le_refl 1, 1, rfl, rfl⟩, ⟨by decide, Nat.le_succ 1, fun n h => ?_, by decide⟩,
    ⟨by decide, trivial, by simp [collecting, State.reset], by decide⟩⟩
  obtain rfl : 2 = n := by simpa using h
  decide
theorem witness_SbLdReadsCells :
    (let s := collecting resyncCfg [(0, 0x80)];
      0 < s.count ∧ s.sb.read 0 = some 0x80 ∧ s.cfgL.text = false) ∧
    (let s := collecting textCfg [(0, 8), (1, 0)];
      0 < s.count ∧ s.sb.read 0 = some 8 ∧ s.cfgL.text = true ∧ 0 + 1 < s.count ∧
        s.sb.read (0 + 1) = some 0 ∧ 1 < s.count ∧ 1 + 1 = s.count) := by decide
theorem witness_OperationsStopOutsideTheirDomain :
    ([8] : List Nibble).length % 2 = 1 ∧ frameLen (streaming packet).frame = 4 ∧
    (collecting textCfg [(0, 8)]).count ≤ 1 := by decide
theorem witness_StStartThenHandlesEvent :
    exec (.stStart true 0) State.reset = .next (State.reset.emit (.done .ok 1 0)) := rfl

/-- A collected stream of the text path meets the invariant. -/
theorem collecting_inv (t : Memory) (h : t.dense = true) (hc : ∀ c ∈ t, hiNibble c.2 = 0) (e : Err)
    (he : e = .ok ∨ e = .badChar) (r : Bool) :
    { collecting ⟨.scaledInteger, true, r⟩ t with err := e }.Inv where
  dense := h
  capacity := trivial
  charCells := fun _ => hc
  counted := by show (0 : Count) ≤ 0; simp
  markers := by simp [collecting, State.reset, frameOctets]
  idle := by simp [collecting]
  stream := by simp [collecting]
  collect := fun _ => ⟨.inl rfl, rfl, rfl, rfl, he.imp id fun h => .inr ⟨h, rfl⟩⟩
/-- A collected stream of the byte path meets the invariant. -/
theorem collecting_bytes_inv : (collecting resyncCfg [(0, 0x80)]).Inv where
  dense := by decide
  capacity := trivial
  charCells := by simp [collecting, resyncCfg]
  counted := by decide
  markers := by simp [collecting, State.reset, frameOctets]
  idle := by simp [collecting]
  stream := by simp [collecting]
  collect := fun _ => ⟨.inr rfl, rfl, rfl, rfl, .inl rfl⟩
/-- Each clause: an error, the byte path, odd text with and without an occurrence, even text. -/
theorem witness_StEndCFramesWhatWasCollected :
    (∃ s : State, s.Inv ∧ s.phase = .collect ∧ s.err ≠ .ok) ∧
    (∃ s : State, s.Inv ∧ s.phase = .collect ∧ s.err = .ok ∧ s.cfgL.text = false) ∧
    (∃ s : State, s.Inv ∧ s.phase = .collect ∧ s.err = .ok ∧ s.cfgL.text = true ∧ s.count % 2 = 1 ∧
      resyncText s.params.marker (s.sb.map fun c => loNibble c.2) = none) ∧
    (∃ s : State, s.Inv ∧ s.phase = .collect ∧ s.err = .ok ∧ s.cfgL.text = true ∧ s.count % 2 = 1 ∧
      resyncText s.params.marker (s.sb.map fun c => loNibble c.2) = some [8, 0, 10]) ∧
    ∀ r : Bool, ∃ s : State, s.Inv ∧ s.phase = .collect ∧ s.err = .ok ∧ s.cfgL.text = true ∧
      s.count % 2 = 0 ∧ s.cfgL.resyncAlways = r := by
  refine ⟨⟨_, collecting_inv [] (by decide) (by simp) .badChar (.inr rfl) false, by decide⟩,
    ⟨_, collecting_bytes_inv, by decide⟩,
    ⟨_, collecting_inv [(0, 8)] (by decide) (by decide) .ok (.inl rfl) false, by decide⟩,
    ⟨_, collecting_inv (cells 0 [8, 0, 10]) (by decide) (by decide) .ok (.inl rfl) false, by decide⟩,
    fun r => ⟨_, collecting_inv [(0, 8), (1, 0)] (by decide) (by decide) .ok (.inl rfl) r, rfl, rfl, rfl,
      by simp [State.count, collecting], rfl⟩⟩
theorem witness_StDoneReportsAndClears :
    (0 : Count) ≤ (streaming .empty).total ∧ (2 : Count) ≤ ({ streaming .empty with total := 3 } : State).total :=
  by decide

/-! The step statements: a `UNIT` and an `END` in each phase. -/

/-- An event offered, reset released, and the step taken. -/
theorem witness_event (s : State) (pins : Cfg) (w : EventWord) (h : (nextOf (step (offered s pins w))).isSome) :
    ∃ t, step (offered s pins w) = .next t := by
  cases hs : step (offered s pins w) with
  | next t => exact ⟨t, rfl⟩
  | fault r => simp [hs, nextOf] at h
  | refused r => simp [hs, nextOf] at h
theorem witness_StepRunsDecodedOperation :
    (offered State.reset textCfg (unitWord 0x38)).rst = false ∧
    (offered State.reset textCfg (unitWord 0x38)).input = [.event textCfg (unitWord 0x38)] ∧
    decode 0x80 (.event .idle .ok (full .empty)) 9 (unitWord 0x38).toNat = .ok (.stStart false 0x38) :=
  ⟨rfl, rfl, rfl⟩
theorem witness_EventSelectsOperation :
    (offered (streaming packet) Cfg.zero (BitVec.ofBool false ++ (0x80 : Byte))).rst = false ∧
    (offered (streaming packet) Cfg.zero (BitVec.ofBool false ++ (0x80 : Byte))).input =
      [.event Cfg.zero (BitVec.ofBool false ++ (0x80 : Byte))] := ⟨rfl, rfl⟩
theorem witness_EngineWaitsWithoutEvent : State.reset.input = [] := rfl
/-- Each clause: assert, release, and both values driven again. -/
theorem witness_ResetGivesResetState :
    (let s := { streaming packet with input := [.reset true] };
      s.rst = false ∧ s.input = .reset true :: []) ∧
    (let s := { streaming packet with rst := true, input := [.reset false] };
      s.rst = true ∧ s.input = .reset false :: []) ∧
    ∀ b, (let s := { streaming packet with rst := b, input := [.reset b] };
      s.rst = b ∧ s.input = .reset b :: []) := by decide
theorem witness_EventInResetIsRefused :
    ({ offered State.reset Cfg.zero (unitWord 1) with rst := true } : State).rst = true ∧
    ({ offered State.reset Cfg.zero (unitWord 1) with rst := true } : State).input =
      .event Cfg.zero (unitWord 1) :: [] := by decide
theorem witness_ParametersNeverChange : ∃ t, step (offered State.reset textCfg (unitWord 0x38)) = .next t :=
  witness_event _ _ _ (by decide)
theorem witness_ConfigurationLatchedOnlyAtStart :
    (∃ t, step (offered State.reset textCfg (unitWord 0x38)) = .next t) ∧ State.reset.phase = .idle ∧
    (∃ t, step (offered (streaming packet) textCfg (unitWord 0x80)) = .next t) ∧
    (streaming packet).phase ≠ .idle :=
  ⟨witness_event _ _ _ (by decide), rfl, witness_event _ _ _ (by decide), by decide⟩
theorem witness_PhaseTransitions :
    (∃ t, step (offered (streaming packet) textCfg (endWord 0)) = .next t) ∧ (endWord 0).msb = true ∧
    (∃ t, step (offered (streaming packet) textCfg (unitWord 0xFF)) = .next t) ∧
    (unitWord 0xFF).msb = false ∧ (streaming packet).phase ≠ .idle ∧
    (∃ t, step (offered State.reset textCfg (unitWord 0xFF)) = .next t) ∧ State.reset.phase = .idle :=
  ⟨witness_event _ _ _ (by decide), by decide, witness_event _ _ _ (by decide), by decide, by decide,
    witness_event _ _ _ (by decide), rfl⟩
theorem witness_FirstErrorSticksAndSilencesRecords :
    (∃ t, step (offered { streaming packet with err := .decodeFailure } Cfg.zero (unitWord 0x80)) = .next t) ∧
    (∃ t, step (offered { collecting textCfg [] with err := .badChar } Cfg.zero (endWord 7)) = .next t) ∧
    (unitWord 0x80).msb = false ∧ (endWord 7).msb = true :=
  ⟨witness_event _ _ _ (by decide), witness_event _ _ _ (by decide), by decide, by decide⟩
theorem witness_EveryEndReportsOnce :
    (∃ t, step (offered (streaming packet) Cfg.zero (unitWord 0x80)) = .next t) ∧
    (∃ t, step (offered (collecting textCfg p4Cells) Cfg.zero (endWord 0)) = .next t) :=
  ⟨witness_event _ _ _ (by decide), witness_event _ _ _ (by decide)⟩
/-- A text of five characters without an occurrence ends with `MalformedInput`. -/
theorem witness_CollectionFailuresHoldNoRecord :
    (offered (collecting textCfg [(0, 8)]) Cfg.zero (endWord 0)).Inv ∧
    ∃ t, step (offered (collecting textCfg [(0, 8)]) Cfg.zero (endWord 0)) = .next t ∧
      t.trace = [] ++ recordItems [] ++ [.out (.done .malformedInput 0 0)] := by
  have h := collecting_inv [(0, 8)] (by decide) (by decide) .ok (.inl rfl) false
  exact ⟨⟨h.dense, h.capacity, h.charCells, h.counted, h.markers, h.idle, h.stream, h.collect⟩, _, rfl,
    by decide⟩
theorem witness_EmptyStreamIsNoError :
    (offered State.reset textCfg (endWord 0)).rst = false ∧
    (offered State.reset textCfg (endWord 0)).phase = .idle ∧
    (offered State.reset textCfg (endWord 0)).input = [.event textCfg (endWord 0)] := by decide
/-- The state after reset meets the invariant, whatever is offered. -/
theorem reset_offered_inv (pins : Cfg) (w : EventWord) (tr : List TraceItem) :
    { offered State.reset pins w with trace := tr }.Inv where
  dense := rfl
  capacity := trivial
  charCells := by simp [offered, State.reset]
  counted := by show (0 : Count) ≤ 0; simp
  markers := by simp [offered, State.reset, frameOctets]
  idle := fun _ => ⟨rfl, rfl, rfl, rfl, rfl⟩
  stream := by simp [offered, State.reset]
  collect := by simp [offered, State.reset]
/-- After reset, and after a failed stream. -/
theorem witness_StreamsAreIndependent :
    { offered State.reset textCfg (unitWord 0x38) with trace := [] }.Inv ∧
    { offered State.reset textCfg (unitWord 0x38) with trace := [.out (.done .badChar 0 0)] }.Inv :=
  ⟨reset_offered_inv _ _ _, reset_offered_inv _ _ _⟩
theorem witness_StepKeepsInvariant :
    { offered State.reset textCfg (unitWord 0x38) with trace := [] }.Inv ∧
    ∃ t, step { offered State.reset textCfg (unitWord 0x38) with trace := [] } = .next t :=
  ⟨reset_offered_inv _ _ _, _, rfl⟩
theorem witness_StepNeverFaults : { offered State.reset textCfg (endWord 0) with trace := [] }.Inv :=
  reset_offered_inv _ _ _
theorem witness_DecodeOfEncode :
    (WellFormed 0x80 (.frCut 0x81) = true ∧ selects (.event .stream .ok true) (.frCut 0x81) = true ∧
      encode 0x80 (.frCut 0x81) = some ⟨9, 0x081⟩) ∧
    (WellFormed 0x80 (.valReject (.one 0x80)) = true ∧ selects .close (.valReject (.one 0x80)) = true ∧
      encode 0x80 (.valReject (.one 0x80)) = some ⟨8, 0x80⟩) := by decide
theorem witness_DecodeIsSound : decode 0x80 (.event .stream .ok false) 9 0x1FF = .ok .stEndS := rfl
theorem witness_StreamAgreesWithDecode :
    (let s := { State.reset with input := streamActs [(textCfg, 0x38)] (Cfg.zero, 0) ++ [] };
      s.rst = false ∧ s.phase = .idle ∧ s.input = streamActs [(textCfg, 0x38)] (Cfg.zero, 0) ++ []) := by decide
theorem witness_ResyncIsIdempotentOnCleanStreams :
    withinDepth (.cells 4) (4 * ([(1, 0, 0x39)] : List (Byte × Byte × Byte)).length) := Nat.le_refl 4
/-- Vector ST-18: text, 5 characters without an occurrence, and the boundary of a full buffer. -/
theorem witness_MalformedInputExactlyWhen :
    (decodeStream ⟨0x80, .cells 5⟩ textCfg [0x31, 0x32, 0x33, 0x34, 0x35]).status = .malformedInput ∧
    textCfg.text = true ∧ (∀ u ∈ ([0x31, 0x32, 0x33, 0x34, 0x35] : List Byte), isHex u = true) ∧
    withinDepth (.cells 5) ([0x31, 0x32, 0x33, 0x34, 0x35] : List Byte).length ∧
    ([0x31, 0x32, 0x33, 0x34, 0x35] : List Byte).length % 2 = 1 ∧
    ∀ i, occText 0x80 (([0x31, 0x32, 0x33, 0x34, 0x35] : List Byte).filterMap hexValue) i = false := by
  refine ⟨by decide, by decide, by decide, Nat.le_refl 5, by decide, fun i => ?_⟩
  exact (resyncText_eq_none _ _).mp (by decide) i
/-- A whole stream, and one cut by reset after two units, from the state after reset. -/
theorem witness_SinkCommitsOnlyGoodBatches :
    (let s := { State.reset with input := streamActs [(Cfg.zero, 0x80)] (Cfg.zero, 0) ++ [] };
      s.rst = false ∧ s.phase = .idle ∧ (sinkAfter s.trace).pending = [] ∧
        s.input = streamActs [(Cfg.zero, 0x80)] (Cfg.zero, 0) ++ []) ∧
    (let units : List (Cfg × Byte) := [(Cfg.zero, 0x80), (Cfg.zero, 1)];
      let s := { State.reset with
        input := units.map (fun u : Cfg × Byte => HostAct.event u.1 (unitWord u.2)) ++ HostAct.reset true :: [] };
      s.rst = false ∧ s.phase = .idle ∧ (sinkAfter s.trace).pending = [] ∧
        s.input = units.map (fun u : Cfg × Byte => HostAct.event u.1 (unitWord u.2)) ++ HostAct.reset true :: []) := by decide

end Sys2Proof.Tests
end

section
/-! The stream buffer operations (spec/20_memory.md section 9): what `SB.ST` and `SB.LD` answer in each
case, and the two statements about them. -/

namespace Sys2Proof.Machine

/-! ### `SB.ST` (R65, R210) -/

/-- `raise` writes `ERR` and nothing else (R209). -/
theorem State.raise_eq_err (s : State) (e : Err) :
    s.raise e = { s with err := if s.err = .ok then e else s.err } := by
  by_cases h : s.err = .ok
  · rw [s.raise_of_ok e h, if_pos h]
  · rw [s.raise_of_error e h, if_neg h]

theorem depthReached_eq_false_iff (d : BufDepth) (n : Nat) :
    depthReached d n = false ↔ ∀ m : ℕ+, d = .cells m → n ≠ (m : Nat) := by
  rw [Bool.eq_false_iff, ne_eq, depthReached_iff]
  simp only [not_exists, not_and, ne_eq]

/-- Within `BUF_DEPTH`, a buffer that is not full takes one more unit (R64, R65). -/
theorem State.storeUnit_of_not_full (s : State) (v : Byte) (hw : withinDepth s.params.bufDepth s.count)
    (hd : depthReached s.params.bufDepth s.count = false) :
    s.storeUnit v = .next { s with sb := s.sb.write s.count v } := by
  have hc : cellExists s.params.bufDepth s.count = true := by
    rw [cellExists_of_withinDepth _ _ hw, hd, Bool.not_false]
  simp only [State.storeUnit, State.memWrite, hc, if_true]

theorem execSbSt_of_full (u : Byte) (s : State) (hd : depthReached s.params.bufDepth s.count = true) :
    execSbSt u s = .next (s.raise .bufferOverflow) := if_pos hd

theorem execSbSt_of_not_hex (u : Byte) (s : State) (hd : depthReached s.params.bufDepth s.count = false)
    (ht : s.cfgL.text = true) (hu : isHex u = false) : execSbSt u s = .next (s.raise .badChar) := by
  have hv : hexValue u = none := by
    rwa [isHex_eq_isSome, Option.isSome_eq_false_iff, Option.isNone_iff_eq_none] at hu
  simp only [execSbSt, hd, ht, hv, Bool.false_eq_true, if_false, if_true]

theorem execSbSt_of_hex (u : Byte) (n : Nibble) (s : State)
    (hd : depthReached s.params.bufDepth s.count = false) (ht : s.cfgL.text = true)
    (hv : hexValue u = some n) : execSbSt u s = s.storeUnit (cellOfChar n) := by
  simp only [execSbSt, hd, ht, hv, Bool.false_eq_true, if_false, if_true]

theorem execSbSt_of_bytes (u : Byte) (s : State) (hd : depthReached s.params.bufDepth s.count = false)
    (ht : s.cfgL.text = false) : execSbSt u s = s.storeUnit u := by
  simp only [execSbSt, hd, ht, Bool.false_eq_true, if_false]

/-- Storing at `COUNT` keeps the buffer dense and makes it one cell longer (R38, R65). -/
theorem Memory.write_length_dense (m : Memory) (v : Byte) (h : m.dense = true) :
    (m.write m.length v).length = m.length + 1 ∧ (m.write m.length v).dense = true := by
  rw [m.write_dense v h]
  exact ⟨by simp, m.dense_append v h⟩

end Sys2Proof.Machine

open Sys2Proof Sys2Proof.Machine

/-- Settles O29: one equation of `SB.ST` per clause; the store then reads as `Memory.write` does. -/
theorem sbStStoresOrRaises : Obligations.SbStStoresOrRaises := by
  intro u s hdense hwithin
  refine ⟨fun hfull => ?_, fun hnot ht hu => ?_, fun v hnot hpath => ?_⟩
  · rw [← s.raise_eq_err]
    exact execSbSt_of_full u s ((depthReached_iff _ _).mpr hfull)
  · rw [← s.raise_eq_err]
    exact execSbSt_of_not_hex u s ((depthReached_eq_false_iff _ _).mpr hnot) ht hu
  · have hd := (depthReached_eq_false_iff _ _).mpr hnot
    have hstore : execSbSt u s = s.storeUnit v := by
      rcases hpath with ⟨ht, hv, hhi⟩ | ⟨ht, rfl⟩
      · rw [execSbSt_of_hex u _ s hd ht hv, cellOfChar_of_nibbles v hhi]
      · exact execSbSt_of_bytes u s hd ht
    obtain ⟨hlength, hdense'⟩ := s.sb.write_length_dense v hdense
    exact ⟨s.sb.write s.count v, hstore.trans (s.storeUnit_of_not_full v hwithin hd), hlength, hdense',
      s.sb.read_write_same _ v, fun a ha => s.sb.read_write_other _ a v ha⟩

namespace Sys2Proof.Machine

/-! ### `SB.LD` (R66) -/

theorem State.memRead_of_lt (s : State) (i : Nat) (h : i < s.count) : s.memRead i = s.sb.read i :=
  if_pos h

theorem State.memRead_of_ge (s : State) (i : Nat) (h : s.count ≤ i) : s.memRead i = none :=
  if_neg (Nat.not_lt.mpr h)

theorem execSbLd_of_bytes (i : Nat) (v : Byte) (s : State) (hr : s.memRead i = some v)
    (ht : s.cfgL.text = false) : execSbLd i s = .next (s.deliver (.load none (some v))) := by
  simp only [execSbLd, State.loadOctet, hr, ht, Bool.false_eq_true, if_false]

/-- On the text path the octet is there exactly when the next cell can be read. -/
theorem execSbLd_of_text (i : Nat) (v : Byte) (s : State) (hr : s.memRead i = some v)
    (ht : s.cfgL.text = true) :
    execSbLd i s = .next (s.deliver (.load (some (loNibble v))
      ((s.memRead (i + 1)).map fun u => octetOfPair (loNibble v) (loNibble u)))) := by
  cases hn : s.memRead (i + 1) <;>
    simp only [execSbLd, State.loadOctet, State.loadChar, hr, hn, ht, if_true, Option.map_some,
      Option.map_none]

theorem octetOfPair_loNibbles_toNat (v u : Byte) :
    (octetOfPair (loNibble v) (loNibble u)).toNat = (v.toNat % 16) * 16 + u.toNat % 16 := by
  rw [octetOfPair_toNat, loNibble_toNat, loNibble_toNat]

end Sys2Proof.Machine

/-- Settles O30: one equation of `SB.LD` per path; on the text path the next index is at or below
`COUNT`. -/
theorem sbLdReadsCells : Obligations.SbLdReadsCells := by
  intro i v s hi hv
  have hr : s.memRead i = some v := (s.memRead_of_lt i hi).trans hv
  refine ⟨execSbLd_of_bytes i v s hr, fun ht => ?_⟩
  have hload := execSbLd_of_text i v s hr ht
  refine ⟨fun hlast => ?_, fun u hnext hu => ?_⟩
  · rw [s.memRead_of_ge (i + 1) hlast.ge] at hload
    exact hload
  · rw [s.memRead_of_lt (i + 1) hnext, hu] at hload
    exact ⟨_, hload, octetOfPair_loNibbles_toNat v u⟩

end

section
/-! The octet source adapter (spec/40_source_adapter.md): what `hex2oct` and `trimEven` compute, and the two
statements about `HEX.PAIR` and `HEX.TRIM`. -/

namespace Sys2Proof.Machine

/-! ### `HEX.PAIR` (R101) -/

theorem hex2oct_length : ∀ t : List Nibble, (hex2oct t).length = t.length / 2
  | [] => rfl
  | [_] => by simp [hex2oct]
  | c0 :: c1 :: rest => by
    have ih := hex2oct_length rest
    simp only [hex2oct, List.length_cons, ih]
    omega

/-- Octet `k` is the pair at `2k` and `2k + 1`; taking the first pair off moves every index by one octet
and two characters. -/
theorem hex2oct_getElem? (t : List Nibble) (k : Nat) (c0 c1 : Nibble) (h0 : t[2 * k]? = some c0)
    (h1 : t[2 * k + 1]? = some c1) : (hex2oct t)[k]? = some (octetOfPair c0 c1) := by
  induction k generalizing t with
  | zero =>
    match t, h0, h1 with
    | _ :: _ :: _, rfl, rfl => rfl
  | succ k ih =>
    match t, h0, h1 with
    | _ :: _ :: rest, h0, h1 => exact ih rest h0 h1

theorem exec_hexPair_of_even (t : List Nibble) (s : State) (h : t.length % 2 = 0) :
    exec (.hexPair t) s = .next (s.deliver (.octets (hex2oct t))) := if_pos h

/-! ### `HEX.TRIM` (R102) -/

theorem trimEven_eq (w : List Nibble) : trimEven w = if w.length % 2 = 0 then w else w.dropLast := by
  simp only [trimEven, slice, List.drop_zero, List.dropLast_eq_take]

theorem exec_hexTrim (w : List Nibble) (s : State) :
    exec (.hexTrim w) s = .next (s.deliver (.chars (trimEven w))) := rfl

end Sys2Proof.Machine

open Sys2Proof Sys2Proof.Machine

/-- Settles O2: the octets are `hex2oct t`, by `hex2oct_length` and, octet by octet, `hex2oct_getElem?`. -/
theorem hexPairConvertsPairs : Obligations.HexPairConvertsPairs := by
  intro t s heven
  refine ⟨hex2oct t, exec_hexPair_of_even t s heven, hex2oct_length t, fun k c0 c1 h0 h1 => ?_⟩
  exact ⟨octetOfPair c0 c1, hex2oct_getElem? t k c0 c1 h0 h1, octetOfPair_toNat c0 c1⟩

/-- Settles O3: cutting at `len(w) - 1` is dropping the last character. -/
theorem hexTrimDropsOddLast : Obligations.HexTrimDropsOddLast := by
  intro w s
  rw [← trimEven_eq]
  exact exec_hexTrim w s

end

section
/-! The sync-marker detector and the resynchronizer (spec/41_resync.md): where the first and the last
marker stand, and the four statements about `DET.B`, `DET.T`, `RS.B` and `RS.T`. -/

namespace Sys2Proof.Machine

/-! ### The detector (R110, R111) -/

theorem isSync_iff (marker b : Byte) : isSync marker b = true ↔ b = marker := beq_iff_eq

theorem exec_detB (b : Byte) (s : State) :
    exec (.detB b) s = .next (s.deliver (.sync (isSync s.params.marker b))) := rfl

/-- On the characters of a text, `DET.T` answers `occ_text` (R111). -/
theorem exec_detT_of_getElem? (t : List Nibble) (i : Nat) (c : Nibble) (s : State) (hc : t[i]? = some c) :
    exec (.detT c t[i + 1]?) s = .next (s.deliver (.sync (occText s.params.marker t i))) := by
  rw [occText, hc]
  rfl

theorem eq_hiNibble_iff (c : Nibble) (b : Byte) : c = hiNibble b ↔ c.toNat = b.toNat / 16 := by
  rw [← BitVec.toNat_inj, hiNibble_toNat]

theorem eq_loNibble_iff (c : Nibble) (b : Byte) : c = loNibble b ↔ c.toNat = b.toNat % 16 := by
  rw [← BitVec.toNat_inj, loNibble_toNat]

/-! ### First and last (R112) -/

theorem syncAt_eq_false_iff (marker : Byte) (s : List Byte) (i : Nat) :
    syncAt marker s i = false ↔ s[i]? ≠ some marker := by
  rw [Bool.eq_false_iff, ne_eq, syncAt_iff]

/-! An obligation names the ends without the bound `n` of the search; the bound comes from the index
itself, which lies inside the sequence. -/

theorem least_of_first (p : Nat → Bool) (n first : Nat) (hlt : first < n) (hp : p first = true)
    (hmin : ∀ i < first, p i = false) : least p n = some first :=
  (least_eq_some p n first).mpr ⟨hlt, hp, hmin⟩

theorem greatest_of_last (p : Nat → Bool) (n last : Nat) (hlt : last < n) (hp : p last = true)
    (hmax : ∀ i > last, p i = false) : greatest p n = some last :=
  (greatest_eq_some p n last).mpr ⟨hlt, hp, fun i hi _ => hmax i hi⟩

theorem firstB_eq_some (marker : Byte) (s : List Byte) (first : Nat) (hp : s[first]? = some marker)
    (hmin : ∀ i < first, s[i]? ≠ some marker) : firstB marker s = some first :=
  least_of_first _ _ _ (List.getElem?_eq_some_iff.mp hp).1 ((syncAt_iff ..).mpr hp)
    fun i hi => (syncAt_eq_false_iff ..).mpr (hmin i hi)

theorem lastB_eq_some (marker : Byte) (s : List Byte) (last : Nat) (hp : s[last]? = some marker)
    (hmax : ∀ i > last, s[i]? ≠ some marker) : lastB marker s = some last :=
  greatest_of_last _ _ _ (List.getElem?_eq_some_iff.mp hp).1 ((syncAt_iff ..).mpr hp)
    fun i hi => (syncAt_eq_false_iff ..).mpr (hmax i hi)

theorem firstT_eq_some (marker : Byte) (t : List Nibble) (first : Nat)
    (hp : occText marker t first = true) (hmin : ∀ i < first, occText marker t i = false) :
    firstT marker t = some first :=
  least_of_first _ _ _ (Nat.lt_of_succ_lt (lt_length_of_occText marker t first hp)) hp hmin

theorem lastT_eq_some (marker : Byte) (t : List Nibble) (last : Nat)
    (hp : occText marker t last = true) (hmax : ∀ i > last, occText marker t i = false) :
    lastT marker t = some last :=
  greatest_of_last _ _ _ (Nat.lt_of_succ_lt (lt_length_of_occText marker t last hp)) hp hmax

/-! ### The windows (R113, R116) -/

theorem exec_rsB (octets : List Byte) (s : State) :
    exec (.rsB octets) s = .next (s.deliver (.octets (resyncBytes s.params.marker octets))) := rfl

theorem exec_rsT_of_window (t w : List Nibble) (s : State) (h : resyncText s.params.marker t = some w) :
    exec (.rsT t) s = .next (s.deliver (.chars w)) := by
  simp only [exec, execRsT, h]

theorem exec_rsT_of_noMarker (t : List Nibble) (s : State) (h : resyncText s.params.marker t = none) :
    exec (.rsT t) s = .next (s.deliver .noMarker) := by
  simp only [exec, execRsT, h]

end Sys2Proof.Machine

open Sys2Proof Sys2Proof.Machine

/-- Settles O4: the bit is `isSync`, which is the equality with the marker. -/
theorem detBComparesWithMarker : Obligations.DetBComparesWithMarker :=
  fun b s => ⟨_, exec_detB b s, isSync_iff s.params.marker b⟩

/-- Settles O5: the bit is `occText` at the index, which lies wholly inside the text. -/
theorem detTComparesPairWithMarker : Obligations.DetTComparesPairWithMarker := by
  intro t i c s hc
  refine ⟨_, exec_detT_of_getElem? t i c s hc, fun hocc => ?_, fun ⟨_, hhi, d, hd, hlo⟩ => ?_⟩
  · obtain ⟨hi, hnext⟩ := (occText_iff ..).mp hocc
    have hchar : c = hiNibble s.params.marker := Option.some.inj (hc.symm.trans hi)
    exact ⟨lt_length_of_occText _ t i hocc, (eq_hiNibble_iff ..).mp hchar, _, hnext, loNibble_toNat _⟩
  · rw [occText_iff, hc, hd, (eq_hiNibble_iff ..).mpr hhi, (eq_loNibble_iff ..).mpr hlo]
    exact ⟨rfl, rfl⟩

/-- Settles O6: the named positions are `first_b` and `last_b`, and the window is the slice between them. -/
theorem rsBGivesWindow : Obligations.RsBGivesWindow := by
  intro octets s
  refine ⟨_, exec_rsB octets s, resyncBytes_of_noMarker _ octets, fun first last hf hmin hl hmax => ?_⟩
  exact resyncBytes_of_ends _ octets first last (firstB_eq_some _ octets first hf hmin)
    (lastB_eq_some _ octets last hl hmax)

/-- Settles O7: the named positions are `first_t` and `last_t`, and the window is the slice between them;
without an occurrence there is no window. -/
theorem rsTGivesWindow : Obligations.RsTGivesWindow := by
  intro t s
  refine ⟨fun hnone => ?_, fun first last hf hmin hl hmax => ?_⟩
  · exact exec_rsT_of_noMarker t s ((resyncText_eq_none _ t).mpr hnone)
  · exact exec_rsT_of_window t _ s (resyncText_of_ends _ t first last
      (firstT_eq_some _ t first hf hmin) (lastT_eq_some _ t last hl hmax))

end

section
/-! The packet framer (spec/42_framer.md): what each of its operations gives, and the three statements
about `FR.CLOSE`, about the operations that close a frame, and about `FR.APPEND`. -/

namespace Sys2Proof.Machine

/-! ### `FR.CLOSE` (R134) -/

theorem exec_frClose (s : State) : exec .frClose s = .next s.closeFrame := rfl

/-- A candidate of 4 octets, marker first and its second octet at most 0x7F, validates (R150). -/
theorem validated_of_four (marker : Byte) (f : Frame) (b c d : Byte) (hf : f = .four marker b c d)
    (hb : b.toNat ≤ 0x7F) : validated marker f = some ⟨b.extractLsb' 0 7, c, d⟩ :=
  (validated_eq_some ..).mpr ⟨b, hf, hb, rfl⟩

/-! An accepted frame, by what `acceptFrame` does with it once the frame is counted in `TOTAL`. -/

theorem closeFrame_of_accepted_error (s : State) (f : ValidFrame)
    (hv : validated s.params.marker s.frame = some f) (he : s.err ≠ .ok) :
    s.closeFrame =
      { s with total := satInc s.total, accepted := satInc s.accepted, frame := .empty } := by
  rw [closeFrame_of_accepted s f hv, acceptFrame_of_error { s with total := satInc s.total } f he]

theorem closeFrame_of_accepted_record (s : State) (f : ValidFrame) (r : SensorRecord)
    (hv : validated s.params.marker s.frame = some f) (he : s.err = .ok)
    (hr : unpack s.params.marker s.cfgL.mode f = some r) :
    s.closeFrame =
      { s with
        total := satInc s.total, accepted := satInc s.accepted, frame := .empty,
        trace := s.trace ++ [.out (.record r)] } := by
  rw [closeFrame_of_accepted s f hv, acceptFrame_of_record { s with total := satInc s.total } f r he hr]

theorem closeFrame_of_accepted_fail (s : State) (f : ValidFrame)
    (hv : validated s.params.marker s.frame = some f) (he : s.err = .ok)
    (hr : unpack s.params.marker s.cfgL.mode f = none) :
    s.closeFrame =
      { s with
        total := satInc s.total, accepted := satInc s.accepted, frame := .empty,
        err := .decodeFailure } := by
  rw [closeFrame_of_accepted s f hv, acceptFrame_of_fail { s with total := satInc s.total } f he hr]

/-! ### `FR.SYNC`, `FR.CUT` and `FR.FLUSH` (R130, R131, R133) -/

theorem exec_frSync (s : State) :
    exec .frSync s = .next { s.closeFrame with frame := .one s.params.marker } := rfl

theorem exec_frCut (b : Byte) (s : State) :
    exec (.frCut b) s = .next { s.closeFrame with frame := .one b } := rfl

theorem exec_frFlush (s : State) : exec .frFlush s = .next s.closeFrame := rfl

/-! ### `FR.APPEND` (R132) -/

/-- A frame of fewer than 4 octets has a cell left (R22). -/
theorem exists_frameAppend_of_lt (f : Frame) (b : Byte) (h : frameLen f < 4) :
    ∃ g, frameAppend f b = some g := by
  refine Option.ne_none_iff_exists'.mp fun hnone => ?_
  have hlen : frameLen f = 4 := (full_iff f).mp ((frameAppend_eq_none f b).mp hnone)
  omega

theorem frameLen_append (f g : Frame) (b : Byte) (h : frameAppend f b = some g) :
    frameLen g = frameLen f + 1 := by
  rw [← frameOctets_length, frameOctets_append f g b h, List.length_append, frameOctets_length,
    List.length_singleton]

theorem exec_frAppend_of_room (b : Byte) (s : State) (f : Frame) (h : frameAppend s.frame b = some f) :
    exec (.frAppend b) s = .next { s with frame := f } := by
  simp only [exec, execFrAppend, h]

end Sys2Proof.Machine

open Sys2Proof Sys2Proof.Machine

/-- Settles O10: one equation of `closeFrame` per clause; the frame's octets decide whether it validates,
and `satInc` is the saturating count. -/
theorem frCloseCountsValidatesDecodes : Obligations.FrCloseCountsValidatesDecodes := by
  intro s
  simp only [← satInc_eq, exec_frClose]
  refine ⟨fun hrej => ?_, fun b c d hf hb => ?_⟩
  · rw [closeFrame_of_rejected s ((validated_eq_none ..).mpr hrej)]
  · have hv := validated_of_four _ s.frame b c d hf hb
    refine ⟨fun he => ?_, fun he r hr => ?_, fun he hr => ?_⟩
    · rw [closeFrame_of_accepted_error s _ hv he]
    · rw [closeFrame_of_accepted_record s _ r hv he hr]
    · rw [closeFrame_of_accepted_fail s _ hv he hr]

/-- Settles O11: the state is `closeFrame`, in which each of the four operations ends or from which it
opens its frame. -/
theorem cutsCloseThenOpen : Obligations.CutsCloseThenOpen :=
  fun b s => ⟨s.closeFrame, exec_frClose s, closeFrame_frame s, exec_frSync s, exec_frCut b s,
    exec_frFlush s⟩

/-- Settles O12: the frame has a cell left, and the append fills it. -/
theorem frAppendAddsOctet : Obligations.FrAppendAddsOctet := by
  intro b s hlt
  obtain ⟨f, hf⟩ := exists_frameAppend_of_lt s.frame b hlt
  exact ⟨f, exec_frAppend_of_room b s f hf, frameOctets_append s.frame f b hf,
    frameLen_append s.frame f b hf⟩

end

section
/-! The frame validator (spec/43_validator.md): which row a candidate selects when it is closed, what
`VAL.ACCEPT` and `VAL.REJECT` give, and the three statements about them. -/

namespace Sys2Proof

/-! ### The row a candidate selects (R85, R150) -/

theorem decodeCandidate_of_validated (marker : Byte) (f : Frame) (v : ValidFrame)
    (h : Machine.validated marker f = some v) : decodeCandidate marker f = .valAccept v := by
  rw [decodeCandidate, h]

theorem decodeCandidate_of_rejected (marker : Byte) (f : Frame)
    (h : Machine.validated marker f = none) : decodeCandidate marker f = .valReject f := by
  rw [decodeCandidate, h]

end Sys2Proof

namespace Sys2Proof.Machine

theorem validated_of_not_valid (marker : Byte) (f : Frame) (h : valid marker f = false) :
    validated marker f = none :=
  if_neg (Bool.eq_false_iff.mp h)

/-! ### `VAL.ACCEPT` and `VAL.REJECT` (R151, R152) -/

theorem exec_valAccept (f : ValidFrame) (s : State) :
    exec (.valAccept f) s = .next (s.acceptFrame f) := rfl

theorem exec_valReject (f : Frame) (s : State) : exec (.valReject f) s = .next s := rfl

end Sys2Proof.Machine

open Sys2Proof Sys2Proof.Machine

/-- Settles O18: the row follows `validated`, which the octets of the candidate decide. -/
theorem closeSelectsValidatorRow : Obligations.CloseSelectsValidatorRow := by
  intro marker f
  refine ⟨fun b c d hf hb => ?_, fun hrej => ?_⟩
  · exact decodeCandidate_of_validated marker f _ (validated_of_four marker f b c d hf hb)
  · exact decodeCandidate_of_rejected marker f ((validated_eq_none ..).mpr hrej)

/-- Settles O19: one equation of `acceptFrame` per clause; `satInc` is the saturating count. -/
theorem valAcceptCountsAndDecodes : Obligations.ValAcceptCountsAndDecodes := by
  intro f s
  simp only [← satInc_eq, exec_valAccept]
  refine ⟨fun he => ?_, fun he r hr => ?_, fun he hr => ?_⟩
  · rw [acceptFrame_of_error s f he]
  · rw [acceptFrame_of_record s f r he hr]
  · rw [acceptFrame_of_fail s f he hr]

/-- Settles O20: the open frame, when it is not valid, does not validate, and its close only counts it. -/
theorem valRejectIsSilent : Obligations.ValRejectIsSilent := by
  intro f s
  refine ⟨exec_valReject f s, fun hf hv => ?_⟩
  have hrej : validated s.params.marker s.frame = none :=
    validated_of_not_valid _ s.frame (hf.symm ▸ hv)
  rw [exec_frClose, closeFrame_of_rejected s hrej, satInc_eq]

end

section
/-! The packet decoder (spec/44_unpacker.md): the fields of a validated frame by its octets, what the
`UNP` operations give, and the three statements about `UNP.CNT`, `UNP.SCALED` and `UNP.HEXCAT`. -/

namespace Sys2Proof.Machine

/-- The fields of a validated frame are its second, third and fourth octets (R80, R150). -/
theorem fields_of_validated (marker f0 f1 f2 f3 : Byte) (v : ValidFrame)
    (h : validated marker (.four f0 f1 f2 f3) = some v) :
    v.counter.toNat = f1.toNat ∧ v.hi = f2 ∧ v.lo = f3 := by
  obtain ⟨b, hf, hb, hcounter⟩ := (validated_eq_some ..).mp h
  obtain ⟨-, rfl, hhi, hlo⟩ := Frame.four.inj hf
  exact ⟨by rw [hcounter, counter_toNat _ hb], hhi.symm, hlo.symm⟩

/-! ### `UNP.CNT` and `UNP.SCALED` (R161, R163) -/

theorem exec_unpCnt (f : ValidFrame) (s : State) :
    exec (.unpCnt f) s = .next (s.deliver (.count f.counter)) := rfl

theorem exec_unpScaled (f : ValidFrame) (s : State) :
    exec (.unpScaled f) s = .next (s.deliver (.centi (unpackScaled f))) := rfl

/-! ### `UNP.HEXCAT` (R164, R165) -/

theorem unpackHexcat_of_decimal (f : ValidFrame) (h : nondecimal f.hi f.lo = false) :
    ∃ c, unpackHexcat f = some c ∧
      c.toNat = 1000 * (f.hi.toNat / 16) + 100 * (f.hi.toNat % 16) + 10 * (f.lo.toNat / 16)
        + f.lo.toNat % 16 := by
  obtain ⟨hnon, -⟩ | ⟨c, -, hc⟩ := unpackHexcat_cases f
  · exact absurd hnon (Bool.eq_false_iff.mp h)
  · exact ⟨c, hc⟩

theorem unpackHexcat_of_nondecimal (f : ValidFrame) (h : nondecimal f.hi f.lo ≠ false) :
    unpackHexcat f = none := by
  obtain ⟨-, hnone⟩ | ⟨_, hdec, -⟩ := unpackHexcat_cases f
  · exact hnone
  · exact absurd hdec h

theorem exec_unpHexcat_of_some (f : ValidFrame) (s : State) (c : BitVec 16)
    (h : unpackHexcat f = some c) : exec (.unpHexcat f) s = .next (s.deliver (.centi c)) := by
  simp only [exec, execUnpHexcat, h]

theorem exec_unpHexcat_of_none (f : ValidFrame) (s : State) (h : unpackHexcat f = none) :
    exec (.unpHexcat f) s = .next (s.deliver .fail) := by
  simp only [exec, execUnpHexcat, h]

end Sys2Proof.Machine

open Sys2Proof Sys2Proof.Machine

/-- Settles O24: the condition on the four nibbles is `nondecimal`, which decides whether `unpackHexcat`
has a value. -/
theorem unpHexcatReadsDecimalDigits : Obligations.UnpHexcatReadsDecimalDigits := by
  intro f0 f1 f2 f3 v s hv
  obtain ⟨-, rfl, rfl⟩ := fields_of_validated _ f0 f1 f2 f3 v hv
  rw [← nondecimal_eq_false]
  refine ⟨fun hdec => ?_, fun hnon => ?_⟩
  · obtain ⟨c, hc, hvalue⟩ := unpackHexcat_of_decimal v hdec
    exact ⟨c, exec_unpHexcat_of_some v s c hc, hvalue⟩
  · exact exec_unpHexcat_of_none v s (unpackHexcat_of_nondecimal v hnon)

/-- Settles O22: the value is the counter field, which is the second octet. -/
theorem unpCntIsSecondOctet : Obligations.UnpCntIsSecondOctet := by
  intro f0 f1 f2 f3 v s hv
  obtain ⟨hcounter, -, -⟩ := fields_of_validated _ f0 f1 f2 f3 v hv
  exact ⟨v.counter, exec_unpCnt v s, hcounter⟩

/-- Settles O23: the value is `unpackScaled`, on the third and fourth octets. -/
theorem unpScaledIsBigEndian : Obligations.UnpScaledIsBigEndian := by
  intro f0 f1 f2 f3 v s hv
  obtain ⟨-, rfl, rfl⟩ := fields_of_validated _ f0 f1 f2 f3 v hv
  exact ⟨unpackScaled v, exec_unpScaled v s, unpackScaled_toNat v⟩

end

section
/-! Stream control (spec/45_stream_control.md): how an event is handled by the row for `PHASE`, and the
two statements about `ST.START` and `ST.DONE`. -/

namespace Sys2Proof.Machine

/-! ### The row for `PHASE` (R85, R182 to R184) -/

theorem exec_decodeOctet (b : Byte) (s : State) :
    exec (decodeOctet s.params.marker (full s.frame) b) s = framerStep b s := by
  unfold decodeOctet framerStep
  split_ifs <;> rfl

theorem exec_decodeEvent_of_stream (err : Err) (w : EventWord) (s : State) :
    exec (decodeEvent s.params.marker .stream err (full s.frame) w) s =
      streamEvent w.msb (w.extractLsb' 0 8) s := by
  simp only [decodeEvent, streamEvent]
  split_ifs
  · rfl
  · exact exec_decodeOctet _ s

theorem exec_decodeEvent_of_collect (marker : Byte) (isFull : Bool) (w : EventWord) (s : State) :
    exec (decodeEvent marker .collect s.err isFull w) s =
      collectEvent w.msb (w.extractLsb' 0 8) s := by
  simp only [decodeEvent, collectEvent, ne_eq, ite_not]
  split_ifs <;> rfl

/-- With a stream in progress, the operation an event selects handles that event. -/
theorem exec_operation_of_busy (w : EventWord) (s : State) (h : s.phase ≠ .idle) :
    exec (s.operation w) s = handleEvent w.msb (w.extractLsb' 0 8) s := by
  unfold State.operation handleEvent
  cases hp : s.phase with
  | idle => exact absurd hp h
  | stream => exact exec_decodeEvent_of_stream s.err w s
  | collect => exact exec_decodeEvent_of_collect s.params.marker (full s.frame) w s

/-! ### `ST.START` (R180) -/

theorem exec_stStart (fin : Bool) (data : Byte) (s : State) :
    exec (.stStart fin data) s = handleEvent fin data s.startStream := rfl

theorem startStream_eq (s : State) :
    s.startStream = { s with
      cfgL := s.pins, frame := .empty, total := 0, accepted := 0, err := .ok, sb := [],
      phase := if s.pins.text = false ∧ s.pins.resyncAlways = false then .stream else .collect } := by
  rw [← pathOf_eq]
  rfl

theorem streamEvent_completes (fin : Bool) (data : Byte) (s : State) :
    ∃ t, streamEvent fin data s = .next t := by
  cases fin with
  | true => exact ⟨_, execStEndS_eq s⟩
  | false => exact ⟨_, framerStep_eq_next data s⟩

/-- Within `BUF_DEPTH`, `SB.ST` stores the unit or raises an error (R65). -/
theorem execSbSt_completes (u : Byte) (s : State) (hw : withinDepth s.params.bufDepth s.count) :
    ∃ t, execSbSt u s = .next t := by
  cases hd : depthReached s.params.bufDepth s.count with
  | true => exact ⟨_, execSbSt_of_full u s hd⟩
  | false =>
    have hstore := fun v => s.storeUnit_of_not_full v hw hd
    cases ht : s.cfgL.text with
    | false => exact ⟨_, (execSbSt_of_bytes u s hd ht).trans (hstore u)⟩
    | true =>
      cases hv : hexValue u with
      | none => exact ⟨_, execSbSt_of_not_hex u s hd ht (by rw [isHex_eq_isSome, hv]; rfl)⟩
      | some n => exact ⟨_, (execSbSt_of_hex u n s hd ht hv).trans (hstore _)⟩

theorem withinDepth_zero (d : BufDepth) : withinDepth d 0 := by
  cases d with
  | cells n => exact Nat.zero_le n
  | infinite => trivial

theorem collectEvent_startStream_completes (fin : Bool) (data : Byte) (s : State) :
    ∃ t, collectEvent fin data s.startStream = .next t := by
  cases fin with
  | true => exact ⟨_, execStEndC_eq s.startStream rfl rfl rfl rfl rfl⟩
  | false => exact execSbSt_completes data s.startStream (withinDepth_zero _)

/-- The first event of a stream is always handled: the frame and the buffer are empty. -/
theorem handleEvent_startStream_completes (fin : Bool) (data : Byte) (s : State) :
    ∃ t, handleEvent fin data s.startStream = .next t := by
  unfold handleEvent
  split
  · exact collectEvent_startStream_completes fin data s
  · exact streamEvent_completes fin data s.startStream

/-! ### `ST.DONE` (R186) -/

/-- `TOTAL` and `ACCEPTED` are 0 anyway when no framing was performed, so both reports are the same. -/
theorem State.finish_eq_of_counted (s : State) (framed : Bool) (h : s.accepted ≤ s.total)
    (hf : framed = false → s.total = 0) : s.finish framed = s.finish true := by
  cases framed with
  | true => rfl
  | false =>
    have ht : s.total = 0 := hf rfl
    have ha : s.accepted = 0 := BitVec.le_zero_iff.mp (h.trans_eq ht)
    simp only [State.finish, ht, ha, Bool.false_eq_true, if_false, if_true]

theorem exec_stDone_of_counted (s : State) (h : s.accepted ≤ s.total) :
    exec .stDone s = .next (s.finish true) := by
  rw [← s.finish_eq_of_counted (s.total != 0) h (by simp)]
  rfl

end Sys2Proof.Machine

open Sys2Proof Sys2Proof.Machine

/-- Settles O32: `c` is `startStream`, in which the operation the event selects handles it. -/
theorem stStartThenHandlesEvent : Obligations.StStartThenHandlesEvent := by
  intro fin data s c hc
  obtain rfl : c = s.startStream := hc.trans (startStream_eq s).symm
  have hbusy := exec_operation_of_busy (BitVec.ofBool fin ++ data) s.startStream (pathOf_ne_idle s.pins)
  rw [ofBool_append_msb, ofBool_append_data] at hbusy
  rw [exec_stStart]
  exact ⟨hbusy.symm, handleEvent_startStream_completes fin data s⟩

/-- Settles O36: with `ACCEPTED <= TOTAL` both branches report the counts as they stand. -/
theorem stDoneReportsAndClears : Obligations.StDoneReportsAndClears :=
  exec_stDone_of_counted

end

section
/-! The status `MalformedInput` of `decode` (R192, R201 of spec/60_exceptions.md): when the collection raises
no error, when there is no octet sequence to frame, and that nothing else gives this status. -/

namespace Sys2Proof.Machine

/-! ### Collection (R64, R205, R206) -/

/-- The cell at `n` exists exactly when the buffer may hold `n + 1` units (R64, R37). -/
theorem cellExists_iff_withinDepth_succ (d : BufDepth) (n : Nat) :
    cellExists d n = true ↔ withinDepth d (n + 1) := by
  cases d with
  | infinite => exact ⟨fun _ => trivial, fun _ => rfl⟩
  | cells m => exact decide_eq_true_iff

theorem withinDepth_mono (d : BufDepth) {m n : Nat} (hmn : m ≤ n) (h : withinDepth d n) :
    withinDepth d m := by
  cases d with
  | infinite => trivial
  | cells c => exact hmn.trans h

/-- The text path collects without an error exactly when the input fits and every unit is a hex character. -/
theorem collectionError_text_eq_none_iff (d : BufDepth) (input : List Byte) (k : Nat)
    (hk : withinDepth d k) :
    collectionError d true k input = none ↔
      withinDepth d (k + input.length) ∧ ∀ u ∈ input, isHex u = true := by
  induction input generalizing k with
  | nil => simpa [collectionError] using hk
  | cons u rest ih =>
    rw [collectionError, List.length_cons, Nat.add_comm rest.length 1, ← Nat.add_assoc, List.forall_mem_cons]
    by_cases hfit : withinDepth d (k + 1)
    · have hcell := (cellExists_iff_withinDepth_succ d k).mpr hfit
      by_cases hhex : isHex u = true
      · simp [hcell, hhex, ih (k + 1) hfit]
      · simp [hcell, hhex]
    · have hcell : cellExists d k = false :=
        Bool.eq_false_iff.mpr fun h => hfit ((cellExists_iff_withinDepth_succ d k).mp h)
      have hlong : ¬ withinDepth d (k + 1 + rest.length) := fun h =>
        hfit (withinDepth_mono d (Nat.le_add_right _ _) h)
      simp [hcell, hlong]

/-- Collection only raises `BufferOverflow` and `BadChar` (R184). -/
theorem collectionError_ne_malformedInput (d : BufDepth) (text : Bool) (input : List Byte) (k : Nat) :
    collectionError d text k input ≠ some .malformedInput := by
  induction input generalizing k with
  | nil => simp [collectionError]
  | cons u rest ih =>
    rw [collectionError]
    split
    · simp
    · split
      · simp
      · exact ih (k + 1)

/-! ### The octet sequence to frame (R103, R116) -/

/-- The adapter fails exactly on an odd-length sequence without an occurrence of the marker's text. -/
theorem adapter_eq_none_iff (marker : Byte) (t : List Nibble) :
    adapter marker t = none ↔ t.length % 2 = 1 ∧ ∀ i, occText marker t i = false := by
  rw [adapter]
  split
  · next heven => simp [heven]
  · next hodd => simp [Nat.mod_two_ne_zero.mp hodd, resyncText_eq_none]

/-- Resynchronization happens on even-length text only, where the adapter does not fail. -/
theorem octetsToFrame_eq_none_iff (marker : Byte) (cfg : Cfg) (input : List Byte) :
    octetsToFrame marker cfg input = none ↔
      cfg.text = true ∧ adapter marker (input.filterMap hexValue) = none := by
  rw [octetsToFrame]
  split
  · next ht =>
    dsimp only
    split <;> simp [ht]
  · next ht => simp [ht]

/-! ### The status of `decode` (R192, R201) -/

theorem unpackAll_status_ne_malformedInput (marker : Byte) (mode : Mode) (fs : List ValidFrame) :
    (unpackAll marker mode fs).2 ≠ .malformedInput := by
  induction fs with
  | nil => simp [unpackAll]
  | cons f rest ih =>
    rw [unpackAll]
    cases unpack marker mode f with
    | none => simp
    | some r => exact ih

/-- Framing, validating and unpacking only raise `DecodeFailure`. -/
theorem decodeOctets_status_ne_malformedInput (marker : Byte) (mode : Mode) (octets : List Byte) :
    (decodeOctets marker mode octets).status ≠ .malformedInput :=
  unpackAll_status_ne_malformedInput _ _ _

/-- What `decode` does after the collection: a refusal of the adapter is the only source of the status. -/
theorem decodeStream_status_eq_malformedInput_iff (p : Params) (cfg : Cfg) (input : List Byte) :
    (decodeStream p cfg input).status = .malformedInput ↔
      cfg.text = true ∧ collectionError p.bufDepth true 0 input = none ∧
        adapter p.marker (input.filterMap hexValue) = none := by
  have hframe := octetsToFrame_eq_none_iff p.marker cfg input
  rw [decodeStream]
  split
  · next e he =>
    have hraised : ∃ text, collectionError p.bufDepth text 0 input = some e := by
      split at he
      · exact ⟨_, he⟩
      · cases he
    obtain ⟨text, htext⟩ := hraised
    have hne : e ≠ .malformedInput := fun h =>
      collectionError_ne_malformedInput _ _ _ _ (htext.trans (congrArg some h))
    refine iff_of_false hne fun ⟨ht, hcollected, _⟩ => ?_
    simp [ht, hcollected] at he
  · next hcollected =>
    split
    · next hnone =>
      obtain ⟨ht, hrefused⟩ := hframe.mp hnone
      simp only [ht, Bool.true_or, if_true] at hcollected
      exact iff_of_true rfl ⟨ht, hcollected, hrefused⟩
    · next octets hsome =>
      refine iff_of_false (decodeOctets_status_ne_malformedInput _ _ _) fun ⟨ht, _, hrefused⟩ => ?_
      rw [hframe.mpr ⟨ht, hrefused⟩] at hsome
      cases hsome

/-- A stream that fails before framing has no record and counts 0; only framing gives anything else. -/
theorem decodeStream_of_malformedInput (p : Params) (cfg : Cfg) (input : List Byte)
    (h : (decodeStream p cfg input).status = .malformedInput) :
    decodeStream p cfg input = failedResult .malformedInput := by
  rw [decodeStream] at h ⊢
  split at h
  · exact congrArg failedResult h
  · split at h
    · rfl
    · exact absurd h (decodeOctets_status_ne_malformedInput _ _ _)

/-- The character sequence of hex text has one character for each unit. -/
theorem length_filterMap_hexValue (input : List Byte) (h : ∀ u ∈ input, isHex u = true) :
    (input.filterMap hexValue).length = input.length :=
  List.filterMap_length_eq_length.mpr fun u hu => isHex_eq_isSome u ▸ h u hu

end Sys2Proof.Machine

open Sys2Proof Sys2Proof.Machine

/-- Settles O58: the text is collected without an error, and then the adapter refuses it. -/
theorem malformedInputExactlyWhen : Obligations.MalformedInputExactlyWhen := by
  intro p cfg input
  refine ⟨?_, decodeStream_of_malformedInput p cfg input⟩
  rw [decodeStream_status_eq_malformedInput_iff, collectionError_text_eq_none_iff _ _ _ (withinDepth_zero _),
    adapter_eq_none_iff, Nat.zero_add]
  constructor
  · rintro ⟨ht, ⟨hfit, hhex⟩, hodd, hocc⟩
    exact ⟨ht, hhex, hfit, length_filterMap_hexValue input hhex ▸ hodd, hocc⟩
  · rintro ⟨ht, hhex, hfit, hodd, hocc⟩
    exact ⟨ht, ⟨hfit, hhex⟩, (length_filterMap_hexValue input hhex).symm ▸ hodd, hocc⟩

end

section
/-! The invariant of the engine (spec/10_state.md, spec/42_framer.md section 2, spec/45_stream_control.md
section 1): what handling an event needs and keeps, and the statements that every step keeps the invariant
and that no step faults. -/

namespace Sys2Proof.Machine

/-! ### A stream in progress -/

/-- What holds when an event is handled: the invariant, but for the two things that only hold between steps.
`PHASE` is not IDLE any more, and on the first event of a cut-through stream the frame is still empty. -/
structure State.InProgress (s : State) : Prop where
  dense : s.sb.dense = true
  capacity : withinDepth s.params.bufDepth s.count
  charCells : s.cfgL.text = true → ∀ c ∈ s.sb, hiNibble c.2 = 0
  counted : s.accepted ≤ s.total
  markers : ∀ b ∈ (frameOctets s.frame).tail, b ≠ s.params.marker
  stream : s.phase = .stream →
    s.cfgL.text = false ∧ s.cfgL.resyncAlways = false ∧ s.sb = [] ∧
      (s.err = .ok ∨ (s.err = .decodeFailure ∧ s.cfgL.mode = .hexDigitConcatenation))
  collect : s.phase = .collect →
    (s.cfgL.text = true ∨ s.cfgL.resyncAlways = true) ∧ s.frame = .empty ∧ s.total = 0 ∧
      s.accepted = 0 ∧
      (s.err = .ok ∨ (s.err = .bufferOverflow ∧ depthReached s.params.bufDepth s.count = true) ∨
        (s.err = .badChar ∧ s.cfgL.text = true))

theorem State.Inv.inProgress {s : State} (h : s.Inv) : s.InProgress where
  dense := h.dense
  capacity := h.capacity
  charCells := h.charCells
  counted := h.counted
  markers := h.markers
  stream hp := by
    obtain ⟨ht, hr, hsb, -, he⟩ := h.stream hp
    exact ⟨ht, hr, hsb, he⟩
  collect := h.collect

/-- Once the frame of a cut-through stream is open, the invariant holds between steps again. -/
theorem State.InProgress.inv {s : State} (h : s.InProgress) (hbusy : s.phase ≠ .idle)
    (hopen : s.phase = .stream → s.frame ≠ .empty) : s.Inv where
  dense := h.dense
  capacity := h.capacity
  charCells := h.charCells
  counted := h.counted
  markers := h.markers
  idle hp := absurd hp hbusy
  stream hp := by
    obtain ⟨ht, hr, hsb, he⟩ := h.stream hp
    exact ⟨ht, hr, hsb, hopen hp, he⟩
  collect := h.collect

/-- The host's side and the trace play no part. -/
theorem State.InProgress.withPorts {s : State} (h : s.InProgress) (pins : Cfg) (input : List HostAct)
    (bus : Option BusValue) (trace : List TraceItem) :
    { s with pins := pins, input := input, bus := bus, trace := trace }.InProgress :=
  ⟨h.dense, h.capacity, h.charCells, h.counted, h.markers, h.stream, h.collect⟩

theorem pathOf_eq_stream_iff (c : Cfg) :
    pathOf c = .stream ↔ c.text = false ∧ c.resyncAlways = false := by
  rw [pathOf_eq]
  split <;> simp_all

theorem pathOf_eq_collect_iff (c : Cfg) :
    pathOf c = .collect ↔ c.text = true ∨ c.resyncAlways = true := by
  rw [pathOf, ← Bool.or_eq_true]
  split <;> simp_all

/-- `ST.START` clears every register, so nothing of the past is needed (R180). -/
theorem startStream_inProgress (s : State) : s.startStream.InProgress where
  dense := rfl
  capacity := withinDepth_zero _
  charCells := by simp
  counted := BitVec.le_refl _
  markers := by simp [frameOctets]
  stream hp := by
    obtain ⟨ht, hr⟩ := (pathOf_eq_stream_iff _).mp hp
    exact ⟨ht, hr, rfl, .inl rfl⟩
  collect hp := ⟨(pathOf_eq_collect_iff _).mp hp, rfl, rfl, rfl, .inl rfl⟩

theorem opened_inProgress (s : State) (pins : Cfg) (rest : List HostAct) (h : s.Inv) :
    (s.opened pins rest).InProgress := by
  by_cases hp : s.phase = .idle
  · rw [s.opened_of_idle pins rest hp]
    exact startStream_inProgress _
  · rw [s.opened_of_busy pins rest hp]
    exact h.inProgress.withPorts pins rest none s.trace

/-! ### One octet of a cut-through stream -/

/-- An accepted frame is counted twice, any other once (R35, R134). -/
theorem closeFrame_counted (s : State) (h : s.accepted ≤ s.total) :
    s.closeFrame.accepted ≤ s.closeFrame.total := by
  rcases closeFrame_cases s with ⟨-, hc⟩ | ⟨f, -, ⟨-, hc⟩ | ⟨r, -, -, hc⟩ | ⟨-, -, hc⟩⟩ <;> rw [hc]
  · exact le_satInc _ _ h
  all_goals exact satInc_le_satInc _ _ h

/-- Only a decode of mode 1 can fail (R163, R165). -/
theorem mode_of_unpack_eq_none (marker : Byte) (mode : Mode) (f : ValidFrame)
    (h : unpack marker mode f = none) : mode = .hexDigitConcatenation := by
  cases mode with
  | scaledInteger => simp at h
  | hexDigitConcatenation => rfl

theorem closeFrame_err (s : State) : s.closeFrame.err = s.err ∨
    (s.err = .ok ∧ s.closeFrame.err = .decodeFailure ∧ s.cfgL.mode = .hexDigitConcatenation) := by
  rcases closeFrame_cases s with ⟨-, hc⟩ | ⟨f, -, ⟨-, hc⟩ | ⟨r, -, -, hc⟩ | ⟨he, hr, hc⟩⟩ <;> rw [hc]
  · exact .inl rfl
  · exact .inl rfl
  · exact .inl rfl
  · exact .inr ⟨he, rfl, mode_of_unpack_eq_none _ _ f hr⟩

theorem takeOctet_counted (s : State) (b : Byte) (h : s.accepted ≤ s.total) :
    (s.takeOctet b).accepted ≤ (s.takeOctet b).total := by
  rcases takeOctet_cases s b with ⟨-, -, f, -, ht⟩ | ⟨-, ht⟩ <;> rw [ht]
  · exact h
  · exact closeFrame_counted s h

theorem takeOctet_err (s : State) (b : Byte) : (s.takeOctet b).err = s.err ∨
    (s.err = .ok ∧ (s.takeOctet b).err = .decodeFailure ∧ s.cfgL.mode = .hexDigitConcatenation) := by
  rcases takeOctet_cases s b with ⟨-, -, f, -, ht⟩ | ⟨-, ht⟩ <;> rw [ht]
  · exact .inl rfl
  · exact closeFrame_err s

/-- A marker always opens a frame, so it is never appended behind another octet (R135 (b)). -/
theorem takeOctet_markers (s : State) (b : Byte)
    (h : ∀ x ∈ (frameOctets s.frame).tail, x ≠ s.params.marker) :
    ∀ x ∈ (frameOctets (s.takeOctet b).frame).tail, x ≠ s.params.marker := by
  rcases takeOctet_cases s b with ⟨hb, -, f, hf, ht⟩ | ⟨-, ht⟩ <;> rw [ht]
  · intro x hx
    rw [frameOctets_append _ _ _ hf] at hx
    cases hcur : frameOctets s.frame with
    | nil => simp [hcur] at hx
    | cons a rest =>
      rw [hcur, List.cons_append, List.tail_cons, List.mem_append, List.mem_singleton] at hx
      rcases hx with hx | rfl
      · exact h x (by simpa [hcur] using hx)
      · exact hb
  · simp [frameOctets]

theorem takeOctet_inv (s : State) (b : Byte) (h : s.InProgress) (hp : s.phase = .stream) :
    (s.takeOctet b).Inv := by
  obtain ⟨hparams, -, -, -, hphase, hcfg, hsb, -, hopen⟩ := takeOctet_unchanged s b
  obtain ⟨ht, hr, hempty, he⟩ := h.stream hp
  have hstream : (s.takeOctet b).phase = .stream := hphase.trans hp
  refine State.InProgress.inv ⟨?_, ?_, ?_, takeOctet_counted s b h.counted, ?_, fun _ => ?_, ?_⟩ ?_ ?_
  · rw [hsb]
    exact h.dense
  · rw [State.count_eq, hsb, hparams]
    exact h.capacity
  · rw [hcfg, hsb]
    exact h.charCells
  · rw [hparams]
    exact takeOctet_markers s b h.markers
  · rw [hcfg, hsb]
    refine ⟨ht, hr, hempty, ?_⟩
    rcases takeOctet_err s b with hsame | ⟨-, hfail, hmode⟩
    · rwa [hsame]
    · exact .inr ⟨hfail, hmode⟩
  · simp [hstream]
  · simp [hstream]
  · exact fun _ => hopen

/-! ### One unit of a collected stream -/

/-- Recording the first error of a collection keeps what holds; `COUNT` and the cells stay (R184). -/
theorem State.InProgress.withCollectionError {s : State} (h : s.InProgress) (hp : s.phase = .collect) (e : Err)
    (he : (e = .bufferOverflow ∧ depthReached s.params.bufDepth s.count = true) ∨
      (e = .badChar ∧ s.cfgL.text = true)) : { s with err := e }.Inv := by
  obtain ⟨hpath, hframe, htotal, haccepted, -⟩ := h.collect hp
  exact State.InProgress.inv
    ⟨h.dense, h.capacity, h.charCells, h.counted, h.markers, by simp [hp],
      fun _ => ⟨hpath, hframe, htotal, haccepted, .inr he⟩⟩ (by simp [hp]) (by simp [hp])

/-- A cell of bits 7:4 zero on the text path, at an address that exists, keeps what holds (R38, R65). -/
theorem State.InProgress.withCell {s : State} (h : s.InProgress) (hp : s.phase = .collect) (he : s.err = .ok)
    (v : Byte) (hcell : cellExists s.params.bufDepth s.count = true)
    (hv : s.cfgL.text = true → hiNibble v = 0) : { s with sb := s.sb.write s.count v }.Inv := by
  obtain ⟨hpath, hframe, htotal, haccepted, -⟩ := h.collect hp
  obtain ⟨hlength, hdense⟩ := s.sb.write_length_dense v h.dense
  have hcount : State.count { s with sb := s.sb.write s.count v } = s.count + 1 := hlength
  refine State.InProgress.inv ⟨hdense, ?_, fun ht c hc => ?_, h.counted, h.markers, by simp [hp],
    fun _ => ⟨hpath, hframe, htotal, haccepted, .inl he⟩⟩ (by simp [hp]) (by simp [hp])
  · rw [hcount]
    exact (cellExists_iff_withinDepth_succ ..).mp hcell
  · rcases Memory.mem_write _ _ _ _ hc with rfl | hc
    · exact hv ht
    · exact h.charCells ht c hc

theorem execSbSt_inv (u : Byte) (s t : State) (h : s.InProgress) (hp : s.phase = .collect)
    (he : s.err = .ok) (ht : execSbSt u s = .next t) : t.Inv := by
  rcases execSbSt_cases u s t ht with ⟨hfull, rfl⟩ | ⟨-, htext, -, rfl⟩ | ⟨v, -, hcell, hv, rfl⟩
  · rw [s.raise_of_ok _ he]
    exact h.withCollectionError hp _ (.inl ⟨rfl, hfull⟩)
  · rw [s.raise_of_ok _ he]
    exact h.withCollectionError hp _ (.inr ⟨rfl, htext⟩)
  · refine h.withCell hp he v hcell fun htext => ?_
    rcases hv with ⟨-, n, -, rfl⟩ | ⟨hbytes, -⟩
    · exact hiNibble_cellOfChar n
    · simp [hbytes] at htext

/-! ### Events and reset -/

/-- Between streams the reset values of the registers are enough. -/
theorem inv_of_reset_registers (s : State) (hp : s.phase = .idle) (hf : s.frame = .empty) (ht : s.total = 0)
    (ha : s.accepted = 0) (he : s.err = .ok) (hsb : s.sb = []) : s.Inv where
  dense := by rw [hsb]; rfl
  capacity := by rw [State.count_eq, hsb]; exact withinDepth_zero _
  charCells := by simp [hsb]
  counted := by rw [ha, ht]; exact BitVec.le_refl _
  markers := by simp [hf, frameOctets]
  idle _ := ⟨hf, ht, ha, he, hsb⟩
  stream := by simp [hp]
  collect := by simp [hp]

/-- A report returns every register to its reset value, whatever stood there before (R186). -/
theorem finish_inv (s : State) (framed : Bool) : (s.finish framed).Inv :=
  inv_of_reset_registers _ rfl rfl rfl rfl rfl rfl

theorem phase_eq_stream {p : Phase} (hi : p ≠ .idle) (hc : p ≠ .collect) : p = .stream := by
  cases p with
  | idle => exact absurd rfl hi
  | stream => rfl
  | collect => exact absurd rfl hc

theorem handleEvent_inv (fin : Bool) (d : Byte) (c t : State) (h : c.InProgress) (hbusy : c.phase ≠ .idle)
    (ht : handleEvent fin d c = .next t) : t.Inv := by
  rcases handleEvent_cases fin d c t ht with
    ⟨-, -, rfl⟩ | ⟨hp, -, rfl⟩ | ⟨-, -, ht⟩ | ⟨hp, -, -, rfl⟩ | ⟨hp, -, he, ht⟩
  · exact finish_inv _ _
  · exact takeOctet_inv c d h (phase_eq_stream hbusy hp)
  · rcases execStEndC_cases c t ht with ⟨-, rfl⟩ | ⟨-, rfl⟩ | ⟨-, octets, rfl⟩ <;> exact finish_inv _ _
  · exact h.inv hbusy (by simp [hp])
  · exact execSbSt_inv d c t h hp he ht

/-- The invariant speaks neither of the reset input nor of the host's side nor of the trace. -/
theorem State.Inv.withPorts {s : State} (h : s.Inv) (rst : Bool) (input : List HostAct)
    (trace : List TraceItem) : { s with rst := rst, input := input, trace := trace }.Inv :=
  ⟨h.dense, h.capacity, h.charCells, h.counted, h.markers, h.idle, h.stream, h.collect⟩

theorem assertReset_inv (s : State) (h : s.Inv) : s.assertReset.Inv := by
  unfold State.assertReset
  split
  · exact h
  · exact h.withPorts true s.input _

theorem releaseReset_inv (s : State) (h : s.Inv) : s.releaseReset.Inv := by
  unfold State.releaseReset
  split
  · exact inv_of_reset_registers _ rfl rfl rfl rfl rfl rfl
  · exact h

theorem step_inv (s t : State) (h : s.Inv) (ht : step s = .next t) : t.Inv := by
  rcases step_cases s t ht with
    ⟨-, rfl⟩ | ⟨rest, -, rfl⟩ | ⟨rest, -, rfl⟩ | ⟨pins, w, rest, -, -, hev⟩
  · exact h
  · exact assertReset_inv _ (h.withPorts s.rst rest s.trace)
  · exact releaseReset_inv _ (h.withPorts s.rst rest s.trace)
  · exact handleEvent_inv _ _ _ t (opened_inProgress s pins rest h) (s.opened_phase_ne_idle pins rest) hev

/-! ### No step faults -/

theorem execStEndC_of_error (s : State) (h : s.err ≠ .ok) : execStEndC s = .next (s.finish false) :=
  if_pos h

theorem execStEndC_completes (s : State) (h : s.InProgress) (hp : s.phase = .collect) :
    ∃ t, execStEndC s = .next t := by
  obtain ⟨-, hframe, htotal, haccepted, -⟩ := h.collect hp
  by_cases he : s.err = .ok
  · exact ⟨_, execStEndC_eq s h.dense hframe htotal haccepted he⟩
  · exact ⟨_, execStEndC_of_error s he⟩

theorem collectEvent_completes (fin : Bool) (data : Byte) (s : State) (h : s.InProgress)
    (hp : s.phase = .collect) : ∃ t, collectEvent fin data s = .next t := by
  unfold collectEvent
  split_ifs
  · exact execStEndC_completes s h hp
  · exact ⟨s, rfl⟩
  · exact execSbSt_completes data s h.capacity

theorem handleEvent_completes (fin : Bool) (data : Byte) (s : State) (h : s.InProgress) :
    ∃ t, handleEvent fin data s = .next t := by
  unfold handleEvent
  split
  · next hp => exact collectEvent_completes fin data s h hp
  · exact streamEvent_completes fin data s

theorem step_event_completes (s : State) (pins : Cfg) (w : EventWord) (rest : List HostAct) (h : s.Inv)
    (hr : s.rst = false) (hi : s.input = .event pins w :: rest) : ∃ t, step s = .next t := by
  rw [step_event s pins w rest hr hi]
  exact handleEvent_completes _ _ _ (opened_inProgress s pins rest h)

theorem step_of_event_in_reset (s : State) (pins : Cfg) (w : EventWord) (rest : List HostAct)
    (hr : s.rst = true) (hi : s.input = .event pins w :: rest) : step s = .refused .eventInReset := by
  simp only [step, hi, hr, if_true]

theorem step_of_no_input (s : State) (hi : s.input = []) : step s = .next s := by
  simp only [step, hi]

theorem step_of_reset (s : State) (b : Bool) (rest : List HostAct) (hi : s.input = .reset b :: rest) :
    step s = .next
      (if b then { s with input := rest }.assertReset else { s with input := rest }.releaseReset) := by
  cases b <;> simp only [step, hi, Bool.false_eq_true, if_true, if_false]

end Sys2Proof.Machine

open Sys2Proof Sys2Proof.Machine

/-- Settles O51: every register has its reset value. -/
theorem resetMeetsInvariant : Obligations.ResetMeetsInvariant :=
  inv_of_reset_registers _ rfl rfl rfl rfl rfl rfl

/-- Settles O52: an event is handled with a stream in progress, and each thing it can do leads to a state
that meets the invariant; reset gives the reset values or keeps the registers. -/
theorem stepKeepsInvariant : Obligations.StepKeepsInvariant :=
  step_inv

/-- Settles O53: under the invariant every operation an event selects completes. -/
theorem stepNeverFaults : Obligations.StepNeverFaults := by
  intro s h
  have htaken : (∃ t, step s = .next t) ∨ (s.rst = true ∧ ∃ pins w rest,
      s.input = .event pins w :: rest ∧ step s = .refused .eventInReset) := by
    rcases hi : s.input with _ | ⟨⟨pins, w⟩ | b, rest⟩
    · exact .inl ⟨s, step_of_no_input s hi⟩
    · cases hr : s.rst with
      | false => exact .inl (step_event_completes s pins w rest h hr hi)
      | true => exact .inr ⟨rfl, pins, w, rest, rfl, step_of_event_in_reset s pins w rest hr hi⟩
    · exact .inl ⟨_, step_of_reset s b rest hi⟩
  refine ⟨fun r hfault => ?_, htaken⟩
  rcases htaken with ⟨t, ht⟩ | ⟨-, _, _, _, -, hrefused⟩
  · rw [ht] at hfault
    cases hfault
  · rw [hrefused] at hfault
    cases hfault

end

section
/-! The encoding (spec/30_encoding.md): what the decoder reads in each format, and the statements that
decoding and encoding undo each other. -/

namespace Sys2Proof

open Machine

/-! ### Input events, format IN9 (R70, R85) -/

theorem decode_unit (m : Byte) (phase : Phase) (err : Err) (isFull : Bool) (u : Byte) :
    decode m (.event phase err isFull) 9 u.toNat = .ok (decodeEvent m phase err isFull (unitWord u)) := by
  rw [← unitWord_toNat u]
  exact decode_event m phase err isFull (unitWord u)

/-- The word of `END` that `encode` writes has zeros for its ignored bits. -/
theorem decode_end (m : Byte) (phase : Phase) (err : Err) (isFull : Bool) :
    decode m (.event phase err isFull) 9 0x100 = .ok (decodeEvent m phase err isFull (endWord 0)) :=
  decode_event m phase err isFull (endWord 0)

theorem decodeEvent_idle (m : Byte) (err : Err) (isFull fin : Bool) (data : Byte) :
    decodeEvent m .idle err isFull (BitVec.ofBool fin ++ data) = .stStart fin data := by
  simp only [decodeEvent, ofBool_append_msb, ofBool_append_data]

theorem decodeEvent_stream_unit (m : Byte) (err : Err) (isFull : Bool) (u : Byte) :
    decodeEvent m .stream err isFull (unitWord u) = decodeOctet m isFull u := by
  simp only [decodeEvent, unitWord_msb, unitWord_data, Bool.false_eq_true, if_false]

theorem decodeEvent_stream_end (m : Byte) (err : Err) (isFull : Bool) (d : Byte) :
    decodeEvent m .stream err isFull (endWord d) = .stEndS := by
  simp only [decodeEvent, endWord_msb, if_true]

theorem decodeEvent_collect_unit (m : Byte) (err : Err) (isFull : Bool) (u : Byte) :
    decodeEvent m .collect err isFull (unitWord u) = if err = .ok then .sbSt u else .stDiscard u := by
  simp only [decodeEvent, unitWord_msb, unitWord_data, Bool.false_eq_true, if_false]

theorem decodeEvent_collect_end (m : Byte) (err : Err) (isFull : Bool) (d : Byte) :
    decodeEvent m .collect err isFull (endWord d) = .stEndC := by
  simp only [decodeEvent, endWord_msb, if_true]

theorem decodeOctet_marker (m : Byte) (isFull : Bool) : decodeOctet m isFull m = .frSync :=
  if_pos ((isSync_iff m m).mpr rfl)

theorem decodeOctet_other (m : Byte) (isFull : Bool) (b : Byte) (h : isSync m b = false) :
    decodeOctet m isFull b = if isFull then .frCut b else .frAppend b :=
  if_neg (Bool.eq_false_iff.mp h)

/-! ### Candidates, format FRAME32 (R73, R74) -/

theorem decode_close (m : Byte) (f : Frame) :
    decode m .close (wordOfCandidate f).nbits (wordOfCandidate f).word = .ok (decodeCandidate m f) := by
  have hfits := Sys2Proof.Laws.EncodingFits.candidate f
  simp only [decode, candidateOfWord_wordOfCandidate, if_neg (Nat.not_le.mpr hfits)]

/-- A candidate that does not validate is not `valid`: a valid one has its fields. -/
theorem valid_of_validated_eq_none (m : Byte) (f : Frame) (h : validated m f = none) :
    valid m f = false := by
  unfold validated at h
  split at h
  · next hv =>
    cases f <;> simp [frameFields, valid, lenOk, frameLen] at h hv
  · next hv => exact Bool.eq_false_iff.mpr hv

theorem nbits_frameOfFields (m : Byte) (v : ValidFrame) :
    (wordOfCandidate (frameOfFields m v)).nbits = 32 := rfl

/-! ### Single operands, formats CHAR8, OCT8 and CHAR8 x 2 (R72, R85) -/

theorem decode_char (m b : Byte) : decode m .char 8 b.toNat = .ok (.hexVal b) := by
  have hfits := b.isLt
  simp only [decode, ne_eq, not_true_eq_false, if_false, if_neg (Nat.not_le.mpr hfits), BitVec.ofNat_toNat,
    BitVec.setWidth_eq]

theorem decode_octet (m b : Byte) : decode m .octet 8 b.toNat = .ok (.detB b) := by
  have hfits := b.isLt
  simp only [decode, ne_eq, not_true_eq_false, if_false, if_neg (Nat.not_le.mpr hfits), BitVec.ofNat_toNat,
    BitVec.setWidth_eq]

theorem append_nibbles_toNat (c d : Nibble) : (c ++ d : Byte).toNat = c.toNat * 16 + d.toNat :=
  octetOfPair_toNat c d

theorem decode_pair (m : Byte) (c d : Nibble) :
    decode m .pair 8 (c ++ d : Byte).toNat = .ok (.detT c (some d)) := by
  have hfits := (c ++ d : Byte).isLt
  have hc : BitVec.ofNat 4 ((c ++ d : Byte).toNat / 16) = c := by
    apply BitVec.eq_of_toNat_eq
    have := c.isLt
    have := d.isLt
    rw [append_nibbles_toNat, BitVec.toNat_ofNat]
    omega
  have hd : BitVec.ofNat 4 (c ++ d : Byte).toNat = d := by
    apply BitVec.eq_of_toNat_eq
    have := d.isLt
    rw [append_nibbles_toNat, BitVec.toNat_ofNat]
    omega
  simp only [decode, ne_eq, not_true_eq_false, if_false, if_neg (Nat.not_le.mpr hfits), hc, hd]

end Sys2Proof

open Sys2Proof Sys2Proof.Machine

/-- Settles O55: one case per row; the selection of the row fixes the format in which its word is read. -/
theorem decodeOfEncode : Obligations.DecodeOfEncode := by
  intro marker sel i c hwf hsel henc
  cases i with
  | stStart fin data =>
    cases henc
    match sel, hsel with
    | .event .idle err isFull, _ =>
      exact (decode_event ..).trans (congrArg _ (decodeEvent_idle ..))
  | stDiscard u =>
    cases henc
    match sel, hsel with
    | .event .collect err isFull, herr =>
      have herr : err ≠ .ok := by simpa [selects] using herr
      rw [decode_unit, decodeEvent_collect_unit, if_neg herr]
  | stEndS =>
    cases henc
    match sel, hsel with
    | .event .stream err isFull, _ => exact (decode_end ..).trans (congrArg _ (decodeEvent_stream_end ..))
  | stEndC =>
    cases henc
    match sel, hsel with
    | .event .collect err isFull, _ => exact (decode_end ..).trans (congrArg _ (decodeEvent_collect_end ..))
  | sbSt u =>
    cases henc
    match sel, hsel with
    | .event .collect err isFull, herr =>
      have herr : err = .ok := by simpa [selects] using herr
      rw [decode_unit, decodeEvent_collect_unit, if_pos herr]
  | frSync =>
    cases henc
    match sel, hsel with
    | .event .stream err isFull, _ => rw [decode_unit, decodeEvent_stream_unit, decodeOctet_marker]
  | frCut b =>
    cases henc
    have hb : isSync marker b = false := by simpa [WellFormed] using hwf
    match sel, hsel with
    | .event .stream err isFull, hfull =>
      have hfull : isFull = true := hfull
      rw [decode_unit, decodeEvent_stream_unit, decodeOctet_other _ _ _ hb, if_pos hfull]
  | frAppend b =>
    cases henc
    have hb : isSync marker b = false := by simpa [WellFormed] using hwf
    match sel, hsel with
    | .event .stream err isFull, hfull =>
      have hfull : isFull = false := by simpa [selects] using hfull
      rw [decode_unit, decodeEvent_stream_unit, decodeOctet_other _ _ _ hb, hfull, if_neg Bool.false_ne_true]
  | hexVal b =>
    cases henc
    obtain rfl : sel = .char := eq_of_beq hsel
    exact decode_char marker b
  | detB b =>
    cases henc
    obtain rfl : sel = .octet := eq_of_beq hsel
    exact decode_octet marker b
  | detT c0 c1 =>
    obtain rfl : sel = .pair := eq_of_beq hsel
    cases c1 with
    | none => cases henc
    | some d =>
      cases henc
      exact decode_pair marker c0 d
  | valAccept f =>
    cases henc
    obtain rfl : sel = .close := eq_of_beq hsel
    rw [decode_close, decodeCandidate_of_validated _ _ _ (validated_frameOfFields marker f)]
  | valReject f =>
    cases henc
    obtain rfl : sel = .close := eq_of_beq hsel
    have hv : valid marker f = false := by simpa [WellFormed] using hwf
    rw [decode_close, decodeCandidate_of_rejected _ _ (validated_of_not_valid _ _ hv)]
  | unpId f | unpCnt f | unpScaled f | unpHexcat f =>
    cases henc
    obtain rfl := eq_of_beq hsel
    rw [nbits_frameOfFields, decode, decodeFrame_of_fields]
    rfl
  | stDone | sbLd _ | hexPair _ | hexTrim _ | rsB _ | rsT _ | frFlush | frClose => cases hsel

namespace Sys2Proof

/-! ### What the decoder accepts (R85, R89) -/

/-- An operation read from a word: well formed, of a row the selection gives, and the word is its encoding
but for the ignored bits of `END`. -/
def ReadSoundly (marker : Byte) (sel : Select) (nbits word : Nat) (i : Instr) : Prop :=
  WellFormed marker i = true ∧ selects sel i = true ∧
    ∃ c, encode marker i = some c ∧ c.nbits = nbits ∧
      (c.word = word ∨ ((i = .stEndS ∨ i = .stEndC) ∧ 256 ≤ word ∧ word < 512))

/-- For every row but the two of `END` the word is exactly the encoding. -/
theorem readSoundly_of_encode {marker : Byte} {sel : Select} {nbits word : Nat} {i : Instr}
    (hwf : WellFormed marker i = true) (hsel : selects sel i = true)
    (henc : encode marker i = some ⟨nbits, word⟩) : ReadSoundly marker sel nbits word i :=
  ⟨hwf, hsel, _, henc, rfl, .inl rfl⟩

theorem eventWord_cases (w : EventWord) : (∃ u, w = unitWord u) ∨ ∃ d, w = endWord d := by
  have hsplit := eventWord_split w
  cases hmsb : w.msb with
  | false => exact .inl ⟨_, by rw [hmsb] at hsplit; exact hsplit⟩
  | true => exact .inr ⟨_, by rw [hmsb] at hsplit; exact hsplit⟩

theorem endWord_bounds (d : Byte) : 256 ≤ (endWord d).toNat ∧ (endWord d).toNat < 512 := by
  revert d; decide

theorem decodeOctet_readSoundly (m : Byte) (err : Err) (isFull : Bool) (u : Byte) :
    ReadSoundly m (.event .stream err isFull) 9 u.toNat (decodeOctet m isFull u) := by
  cases hu : isSync m u with
  | true =>
    obtain rfl := (isSync_iff m u).mp hu
    rw [decodeOctet_marker]
    exact readSoundly_of_encode rfl rfl rfl
  | false =>
    rw [decodeOctet_other m isFull u hu]
    cases isFull <;> exact readSoundly_of_encode (by simp [WellFormed, hu]) rfl rfl

theorem decodeEvent_readSoundly (m : Byte) (phase : Phase) (err : Err) (isFull : Bool) (w : EventWord) :
    ReadSoundly m (.event phase err isFull) 9 w.toNat (decodeEvent m phase err isFull w) := by
  cases phase with
  | idle =>
    rw [eventWord_split w, decodeEvent_idle]
    exact readSoundly_of_encode rfl rfl rfl
  | stream =>
    obtain ⟨u, rfl⟩ | ⟨d, rfl⟩ := eventWord_cases w
    · rw [decodeEvent_stream_unit, unitWord_toNat]
      exact decodeOctet_readSoundly m err isFull u
    · rw [decodeEvent_stream_end]
      exact ⟨rfl, rfl, _, rfl, rfl, .inr ⟨.inl rfl, endWord_bounds d⟩⟩
  | collect =>
    obtain ⟨u, rfl⟩ | ⟨d, rfl⟩ := eventWord_cases w
    · rw [decodeEvent_collect_unit, unitWord_toNat]
      split
      · next herr => exact readSoundly_of_encode rfl (by simp [selects, herr]) rfl
      · next herr => exact readSoundly_of_encode rfl (by simp [selects, herr]) rfl
    · rw [decodeEvent_collect_end]
      exact ⟨rfl, rfl, _, rfl, rfl, .inr ⟨.inr rfl, endWord_bounds d⟩⟩

theorem decodeCandidate_readSoundly (m : Byte) (f : Frame) (nbits word : Nat)
    (hword : wordOfCandidate f = ⟨nbits, word⟩) :
    ReadSoundly m .close nbits word (decodeCandidate m f) := by
  cases hv : validated m f with
  | some v =>
    rw [decodeCandidate_of_validated m f v hv]
    refine readSoundly_of_encode rfl rfl ?_
    rw [encode, frameOfFields_of_validated m f v hv, hword]
  | none =>
    rw [decodeCandidate_of_rejected m f hv]
    refine readSoundly_of_encode ?_ rfl ?_
    · simpa [WellFormed] using valid_of_validated_eq_none m f hv
    · rw [encode, hword]

/-! A word that is not refused has the width of its format and no bit above it. -/

theorem word_of_widthChecks {nbits word width : Nat} {i j : Instr}
    (h : (if nbits ≠ width then .error .width else if 2 ^ width ≤ word then .error .highBits else .ok i :
      Except Reject Instr) = .ok j) : nbits = width ∧ word < 2 ^ width ∧ j = i := by
  split_ifs at h with hn hw
  exact ⟨not_not.mp hn, Nat.not_le.mp hw, (Except.ok.inj h).symm⟩

theorem decodeFrame_eq_ok {m : Byte} {nbits word : Nat} {v : ValidFrame}
    (h : decodeFrame m nbits word = .ok v) : wordOfCandidate (frameOfFields m v) = ⟨nbits, word⟩ := by
  unfold decodeFrame at h
  split_ifs at h with hn hw
  split at h
  · next w hsome =>
    obtain rfl := Except.ok.inj h
    obtain ⟨f, hf, hv⟩ := Option.bind_eq_some_iff.mp hsome
    rw [frameOfFields_of_validated m f w hv]
    refine wordOfCandidate_of_candidateOfWord nbits word f hf ?_
    rw [not_not.mp hn]
    exact Nat.not_le.mp hw
  · cases h

/-- The four decodes of an accepted frame carry the fields, and their word is the frame's. -/
theorem readSoundly_of_decodeFrame {m : Byte} {sel : Select} {nbits word : Nat} {i : Instr}
    (row : ValidFrame → Instr) (h : (decodeFrame m nbits word).map row = .ok i)
    (hwf : ∀ v, WellFormed m (row v) = true) (hsel : ∀ v, selects sel (row v) = true)
    (henc : ∀ v, encode m (row v) = some (wordOfCandidate (frameOfFields m v))) :
    ReadSoundly m sel nbits word i := by
  cases hv : decodeFrame m nbits word with
  | error r =>
    rw [hv] at h
    cases h
  | ok v =>
    rw [hv] at h
    obtain rfl : row v = i := Except.ok.inj h
    exact readSoundly_of_encode (hwf v) (hsel v) ((henc v).trans (congrArg some (decodeFrame_eq_ok hv)))

theorem ofNat_nibbles_toNat (w : Nat) (h : w < 2 ^ 8) :
    (BitVec.ofNat 4 (w / 16) ++ BitVec.ofNat 4 w : Byte).toNat = w := by
  rw [append_nibbles_toNat, BitVec.toNat_ofNat, BitVec.toNat_ofNat]
  omega

theorem ofNat_toNat_of_lt {n w : Nat} (h : w < 2 ^ n) : (BitVec.ofNat n w).toNat = w := by
  rw [BitVec.toNat_ofNat, Nat.mod_eq_of_lt h]

end Sys2Proof

/-- Settles O56: one case per selection; each row's word is rebuilt from the operand read. -/
theorem decodeIsSound : Obligations.DecodeIsSound := by
  intro marker sel nbits word i h
  change ReadSoundly marker sel nbits word i
  cases sel with
  | event phase err isFull =>
    obtain ⟨rfl, hword, rfl⟩ := word_of_widthChecks h
    have hw : (BitVec.ofNat 9 word).toNat = word := ofNat_toNat_of_lt hword
    have := decodeEvent_readSoundly marker phase err isFull (.ofNat 9 word)
    rwa [hw] at this
  | close =>
    rw [decode] at h
    split at h
    · cases h
    · next f hf =>
      split_ifs at h with hword
      obtain rfl := Except.ok.inj h
      exact decodeCandidate_readSoundly marker f nbits word
        (wordOfCandidate_of_candidateOfWord nbits word f hf (Nat.not_le.mp hword))
  | identifier => exact readSoundly_of_decodeFrame .unpId h (fun _ => rfl) (fun _ => rfl) fun _ => rfl
  | counter => exact readSoundly_of_decodeFrame .unpCnt h (fun _ => rfl) (fun _ => rfl) fun _ => rfl
  | pressure mode =>
    cases mode with
    | scaledInteger =>
      exact readSoundly_of_decodeFrame .unpScaled h (fun _ => rfl) (fun _ => rfl) fun _ => rfl
    | hexDigitConcatenation =>
      exact readSoundly_of_decodeFrame .unpHexcat h (fun _ => rfl) (fun _ => rfl) fun _ => rfl
  | char =>
    obtain ⟨rfl, hword, rfl⟩ := word_of_widthChecks h
    exact readSoundly_of_encode rfl rfl (by rw [encode, ofNat_toNat_of_lt hword])
  | octet =>
    obtain ⟨rfl, hword, rfl⟩ := word_of_widthChecks h
    exact readSoundly_of_encode rfl rfl (by rw [encode, ofNat_toNat_of_lt hword])
  | pair =>
    obtain ⟨rfl, hword, rfl⟩ := word_of_widthChecks h
    exact readSoundly_of_encode rfl rfl (by rw [encode, Option.map_some, ofNat_nibbles_toNat word hword])

/-- Settles O54: the decoder computes on the seven words. -/
theorem tableWordsDecode : Obligations.TableWordsDecode :=
  ⟨rfl, rfl, rfl, rfl, rfl, rfl, rfl⟩

end

section
/-! Steps (spec/10_state.md section 1, spec/45_stream_control.md, spec/60_exceptions.md): which operation an
event selects, what an event leaves unchanged, what it emits, and the statements about single steps. -/

namespace Sys2Proof.Machine

/-! ### The operation of a step (R21, R85) -/

/-- The event is taken, and the operation it selects runs (R21). -/
theorem step_operation (s : State) (pins : Cfg) (w : EventWord) (rest : List HostAct) (hr : s.rst = false)
    (hi : s.input = .event pins w :: rest) :
    step s = exec (decodeEvent s.params.marker s.phase s.err (full s.frame) w) (s.takeEvent pins rest) := by
  simp only [step, hi, hr, Bool.false_eq_true, if_false]
  rfl

/-- The first table of R85, `end` and `data` apart. -/
def eventRow (marker : Byte) (phase : Phase) (err : Err) (len : Nat) (fin : Bool) (d : Byte) : Instr :=
  match phase with
  | .idle => .stStart fin d
  | .stream => if fin then .stEndS else if d = marker then .frSync else if len = 4 then .frCut d else .frAppend d
  | .collect => if fin then .stEndC else if err ≠ .ok then .stDiscard d else .sbSt d

theorem decodeOctet_eq (m : Byte) (f : Frame) (b : Byte) : decodeOctet m (full f) b =
    if b = m then .frSync else if frameLen f = 4 then .frCut b else .frAppend b := by
  simp only [decodeOctet, isSync_iff, full_iff]

theorem decodeEvent_eq_eventRow (m : Byte) (phase : Phase) (err : Err) (f : Frame) (fin : Bool) (d : Byte) :
    decodeEvent m phase err (full f) (BitVec.ofBool fin ++ d) = eventRow m phase err (frameLen f) fin d := by
  cases phase with
  | idle => exact decodeEvent_idle ..
  | stream => simp only [decodeEvent, eventRow, ofBool_append_msb, ofBool_append_data, decodeOctet_eq]
  | collect => simp only [decodeEvent, eventRow, ofBool_append_msb, ofBool_append_data, ne_eq, ite_not]

/-! ### Reset (R41, R230) -/

theorem assertReset_of_released (s : State) (h : s.rst = false) :
    s.assertReset = { s with rst := true, trace := s.trace ++ [.resetAsserted] } :=
  if_neg (Bool.eq_false_iff.mp h)

theorem assertReset_of_asserted (s : State) (h : s.rst = true) : s.assertReset = s := if_pos h

theorem releaseReset_of_asserted (s : State) (h : s.rst = true) :
    s.releaseReset = { s with
      rst := false, phase := .idle, cfgL := Cfg.zero, frame := .empty, total := 0, accepted := 0,
      err := .ok, sb := [], bus := none } :=
  if_pos h

theorem releaseReset_of_released (s : State) (h : s.rst = false) : s.releaseReset = s :=
  if_neg (Bool.eq_false_iff.mp h)

@[simp] theorem assertReset_params (s : State) : s.assertReset.params = s.params := by
  unfold State.assertReset
  split <;> rfl

@[simp] theorem releaseReset_params (s : State) : s.releaseReset.params = s.params := by
  unfold State.releaseReset
  split <;> rfl

/-! ### What an event leaves unchanged, and where `PHASE` goes (R185) -/

/-- A step on an event is the handling of that event. -/
theorem handleEvent_of_step {s t : State} {pins : Cfg} {w : EventWord} {rest : List HostAct}
    (hr : s.rst = false) (hi : s.input = .event pins w :: rest) (ht : step s = .next t) :
    handleEvent w.msb (w.extractLsb' 0 8) (s.opened pins rest) = .next t :=
  (step_event s pins w rest hr hi).symm.trans ht

theorem step_params (s t : State) (ht : step s = .next t) : t.params = s.params := by
  rcases step_cases s t ht with
    ⟨-, rfl⟩ | ⟨rest, -, rfl⟩ | ⟨rest, -, rfl⟩ | ⟨pins, w, rest, -, -, hev⟩
  · rfl
  · exact assertReset_params _
  · exact releaseReset_params _
  · obtain ⟨hparams, -⟩ := handleEvent_unchanged _ _ _ t hev
    exact hparams.trans (s.opened_params pins rest)

/-- `END` leads to IDLE; a `UNIT` leaves `PHASE` as the start of the stream chose it. -/
theorem handleEvent_phase (fin : Bool) (d : Byte) (c t : State) (ht : handleEvent fin d c = .next t) :
    t.phase = if fin then .idle else c.phase := by
  rcases handleEvent_cases fin d c t ht with
    ⟨-, rfl, rfl⟩ | ⟨-, rfl, rfl⟩ | ⟨-, rfl, hend⟩ | ⟨-, rfl, -, rfl⟩ | ⟨-, rfl, -, hst⟩
  · rfl
  · obtain ⟨-, -, -, -, hphase, -⟩ := takeOctet_unchanged c d
    exact hphase
  · rcases execStEndC_cases c t hend with ⟨-, rfl⟩ | ⟨-, rfl⟩ | ⟨-, octets, rfl⟩ <;> rfl
  · rfl
  · rcases execSbSt_cases d c t hst with ⟨-, rfl⟩ | ⟨-, -, -, rfl⟩ | ⟨v, -, -, -, rfl⟩ <;> simp

theorem State.opened_phase (s : State) (pins : Cfg) (rest : List HostAct) :
    (s.opened pins rest).phase = if s.phase = .idle then pathOf pins else s.phase := by
  unfold State.opened
  split <;> rfl

/-! ### What an event emits (R59, R190) -/

/-- The events of a result in the trace: its records, then its `DONE`. -/
theorem Result.events_items (r : Result) :
    r.events.map TraceItem.out = recordItems r.recs ++ [.out (.done r.status r.total r.accepted)] := by
  simp [Result.events, recordItems]

/-- The events of a result determine it. -/
theorem Result.events_injective : Function.Injective fun r : Result => r.events.map TraceItem.out := by
  intro q r h
  simp only [Result.events_items] at h
  obtain ⟨hrecs, hdone⟩ := List.append_inj' h rfl
  have hinj : Function.Injective fun x : SensorRecord => TraceItem.out (.record x) :=
    fun x y hxy => by simpa using hxy
  have hrecs : q.recs = r.recs := List.map_injective_iff.mpr hinj hrecs
  obtain ⟨hstatus, htotal, haccepted⟩ : q.status = r.status ∧ q.total = r.total ∧ q.accepted = r.accepted := by
    simpa using hdone
  cases q
  cases r
  exact Result.mk.injEq .. ▸ ⟨hrecs, hstatus, htotal, haccepted⟩

theorem recordItems_append (a b : List SensorRecord) :
    recordItems (a ++ b) = recordItems a ++ recordItems b := List.map_append

theorem exists_recordItems_of_trace {before after : List TraceItem}
    (h : after = before ∨ ∃ r, after = before ++ [.out (.record r)]) :
    ∃ recs, after = before ++ recordItems recs := by
  obtain rfl | ⟨r, rfl⟩ := h
  · exact ⟨[], (List.append_nil _).symm⟩
  · exact ⟨[r], rfl⟩

theorem closeFrame_records (s : State) : ∃ recs, s.closeFrame.trace = s.trace ++ recordItems recs :=
  exists_recordItems_of_trace (closeFrame_trace s)

theorem foldl_takeOctet_records (octets : List Byte) (s : State) :
    ∃ recs, (octets.foldl State.takeOctet s).trace = s.trace ++ recordItems recs := by
  induction octets generalizing s with
  | nil => exact ⟨[], (List.append_nil _).symm⟩
  | cons b rest ih =>
    obtain ⟨first, hfirst⟩ := exists_recordItems_of_trace (takeOctet_trace s b)
    obtain ⟨others, hothers⟩ := ih (s.takeOctet b)
    refine ⟨first ++ others, ?_⟩
    rw [List.foldl_cons, hothers, hfirst, recordItems_append, List.append_assoc]

/-- Framing a sequence and flushing emits records only. -/
theorem closeFrame_foldl_records (octets : List Byte) (s : State) :
    ∃ recs, (octets.foldl State.takeOctet s).closeFrame.trace = s.trace ++ recordItems recs := by
  obtain ⟨framed, hframed⟩ := foldl_takeOctet_records octets s
  obtain ⟨flushed, hflushed⟩ := closeFrame_records (octets.foldl State.takeOctet s)
  exact ⟨framed ++ flushed, by rw [hflushed, hframed, recordItems_append, List.append_assoc]⟩

theorem foldl_takeOctet_err (octets : List Byte) (s : State) :
    (octets.foldl State.takeOctet s).err = s.err ∨
      (octets.foldl State.takeOctet s).err = .decodeFailure := by
  induction octets generalizing s with
  | nil => exact .inl rfl
  | cons b rest ih =>
    rcases ih (s.takeOctet b) with h | h
    · rcases takeOctet_err s b with hb | ⟨-, hb, -⟩
      · exact .inl (h.trans hb)
      · exact .inr (h.trans hb)
    · exact .inr h

/-- Framing a sequence and flushing raises `DecodeFailure` only. -/
theorem closeFrame_foldl_err (octets : List Byte) (s : State) :
    (octets.foldl State.takeOctet s).closeFrame.err = s.err ∨
      (octets.foldl State.takeOctet s).closeFrame.err = .decodeFailure := by
  rcases closeFrame_err (octets.foldl State.takeOctet s) with h | ⟨-, h, -⟩
  · exact (foldl_takeOctet_err octets s).imp h.trans h.trans
  · exact .inr h

theorem finish_framed_trace (c : State) (before : List TraceItem) (recs : List SensorRecord)
    (h : c.trace = before ++ recordItems recs) :
    (c.finish true).trace = before ++ (Result.mk recs c.err c.total c.accepted).events.map .out := by
  rw [State.finish_trace, if_pos rfl, h, Result.events_items, List.append_assoc]

/-- A framed stream reports its records, and an error that was there before or `DecodeFailure`. -/
theorem finish_framed_report (s : State) (octets : List Byte) : ∃ r : Result,
    ((octets.foldl State.takeOctet s).closeFrame.finish true).trace = s.trace ++ r.events.map .out ∧
    (r.status = s.err ∨ r.status = .decodeFailure) := by
  obtain ⟨recs, hrecs⟩ := closeFrame_foldl_records octets s
  exact ⟨_, finish_framed_trace _ _ recs hrecs, closeFrame_foldl_err octets s⟩

/-- `END` reports one result: a failure before framing, or a framed stream (R183, R189, R190). -/
theorem handleEvent_end_report (d : Byte) (c t : State) (ht : handleEvent true d c = .next t) :
    ∃ r : Result, t.trace = c.trace ++ r.events.map .out ∧
      (r = failedResult r.status ∨ r.status = .decodeFailure ∨
        (r.status = c.err ∧ (c.phase = .collect → c.err = .ok))) := by
  rcases handleEvent_cases true d c t ht with
    ⟨hp, -, rfl⟩ | ⟨-, hfin, -⟩ | ⟨-, -, ht⟩ | ⟨-, hfin, -⟩ | ⟨-, hfin, -⟩
  · obtain ⟨r, hr, hs⟩ := finish_framed_report c []
    exact ⟨r, hr, .inr (hs.symm.imp_right fun h => ⟨h, fun hc => absurd hc hp⟩)⟩
  · cases hfin
  · rcases execStEndC_cases c t ht with ⟨-, rfl⟩ | ⟨he, rfl⟩ | ⟨he, octets, rfl⟩
    · exact ⟨failedResult c.err, rfl, .inl rfl⟩
    · refine ⟨failedResult .malformedInput, ?_, .inl rfl⟩
      rw [raise_finish_unframed c _ he]
      rfl
    · obtain ⟨r, hr, hs⟩ := finish_framed_report c octets
      exact ⟨r, hr, .inr (hs.symm.imp_right fun h => ⟨h, fun _ => he⟩)⟩
  · cases hfin
  · cases hfin

/-- A `UNIT` emits at most one record, on the cut-through path only (R182, R184). -/
theorem handleEvent_unit_trace (d : Byte) (c t : State) (hbusy : c.phase ≠ .idle)
    (ht : handleEvent false d c = .next t) :
    t.trace = c.trace ∨ (t.phase = .stream ∧ ∃ r, t.trace = c.trace ++ [.out (.record r)]) := by
  have hphase : t.phase = c.phase := handleEvent_phase false d c t ht
  rcases handleEvent_cases false d c t ht with
    ⟨-, hfin, -⟩ | ⟨hp, -, rfl⟩ | ⟨-, hfin, -⟩ | ⟨-, -, -, rfl⟩ | ⟨-, -, -, ht⟩
  · cases hfin
  · exact (takeOctet_trace c d).imp_right fun h => ⟨hphase.trans (phase_eq_stream hbusy hp), h⟩
  · cases hfin
  · exact .inl rfl
  · rcases execSbSt_cases d c t ht with ⟨-, rfl⟩ | ⟨-, -, -, rfl⟩ | ⟨v, -, -, -, rfl⟩
    · exact .inl (c.raise_trace _)
    · exact .inl (c.raise_trace _)
    · exact .inl rfl

/-! ### After an error (R209, R214, R216) -/

theorem handleEvent_unit_of_error (d : Byte) (c t : State) (he : c.err ≠ .ok)
    (ht : handleEvent false d c = .next t) : t.err = c.err ∧ t.trace = c.trace := by
  rcases handleEvent_cases false d c t ht with
    ⟨-, hfin, -⟩ | ⟨-, -, rfl⟩ | ⟨-, hfin, -⟩ | ⟨-, -, -, rfl⟩ | ⟨-, -, hok, -⟩
  · cases hfin
  · exact takeOctet_of_error c d he
  · cases hfin
  · exact ⟨rfl, rfl⟩
  · exact absurd hok he

theorem handleEvent_end_of_error (d : Byte) (c t : State) (he : c.err ≠ .ok)
    (ht : handleEvent true d c = .next t) :
    ∃ total accepted, t.trace = c.trace ++ [.out (.done c.err total accepted)] := by
  rcases handleEvent_cases true d c t ht with
    ⟨-, -, rfl⟩ | ⟨-, hfin, -⟩ | ⟨-, -, ht⟩ | ⟨-, hfin, -⟩ | ⟨-, hfin, -⟩
  · obtain ⟨herr, htrace⟩ := closeFrame_of_error c he
    exact ⟨_, _, by rw [State.finish_trace, if_pos rfl, herr, htrace]⟩
  · cases hfin
  · rcases execStEndC_cases c t ht with ⟨-, rfl⟩ | ⟨hok, -⟩ | ⟨hok, -⟩
    · exact ⟨0, 0, rfl⟩
    · exact absurd hok he
    · exact absurd hok he
  · cases hfin
  · cases hfin

/-! ### `END` and its data bits (I10) -/

theorem handleEvent_end_data (d e : Byte) (c : State) : handleEvent true d c = handleEvent true e c := by
  unfold handleEvent
  split <;> rfl

/-- A step on `END`, whatever data the word carries. -/
theorem step_end (s : State) (pins : Cfg) (d : Byte) (rest : List HostAct)
    (hi : s.input = .event pins (endWord d) :: rest) :
    step s = if s.rst then .refused .eventInReset else handleEvent true 0 (s.opened pins rest) := by
  cases hr : s.rst with
  | true => exact step_of_event_in_reset s pins _ rest hr hi
  | false =>
    rw [step_event s pins _ rest hr hi, endWord_msb]
    exact handleEvent_end_data _ _ _

end Sys2Proof.Machine

open Sys2Proof Sys2Proof.Machine

/-- Settles O37: a word of 9 bits decodes to the operation the state selects, which is the one the step runs. -/
theorem stepRunsDecodedOperation : Obligations.StepRunsDecodedOperation := by
  intro s pins w rest i hr hi hdec
  rw [decode_event] at hdec
  obtain rfl := Except.ok.inj hdec
  exact step_operation s pins w rest hr hi

/-- Settles O38: the word is its `end` and `data` bits, and the decoder's row for them is the table's. -/
theorem eventSelectsOperation : Obligations.EventSelectsOperation := by
  intro s pins fin d rest hr hi
  rw [step_operation s pins _ rest hr hi, decodeEvent_eq_eventRow]
  rfl

/-- Settles O39: with nothing offered `step` answers its own state. -/
theorem engineWaitsWithoutEvent : Obligations.EngineWaitsWithoutEvent :=
  step_of_no_input

/-- Settles O40: one equation of the reset input per clause. -/
theorem resetGivesResetState : Obligations.ResetGivesResetState := by
  intro s rest
  refine ⟨fun hr hi => ?_, fun b hr hi => ?_, fun hr hi => ?_⟩
  · rw [step_of_reset s true rest hi, if_pos rfl, assertReset_of_released { s with input := rest } hr]
  · rw [step_of_reset s b rest hi]
    cases b with
    | true => rw [if_pos rfl, assertReset_of_asserted { s with input := rest } hr]
    | false => rw [if_neg Bool.false_ne_true, releaseReset_of_released { s with input := rest } hr]
  · rw [step_of_reset s false rest hi, if_neg Bool.false_ne_true,
      releaseReset_of_asserted { s with input := rest } hr]

/-- Settles O41: the step refuses before it looks at the word. -/
theorem eventInResetIsRefused : Obligations.EventInResetIsRefused :=
  step_of_event_in_reset

/-- Settles O42: no event and no drive of reset writes the parameters. -/
theorem parametersNeverChange : Obligations.ParametersNeverChange :=
  step_params

/-- Settles O43: handling an event keeps `CFG_L`, which only the start of a stream writes before. -/
theorem configurationLatchedOnlyAtStart : Obligations.ConfigurationLatchedOnlyAtStart := by
  intro s t pins w rest hr hi ht
  obtain ⟨-, hcfg, -⟩ := handleEvent_unchanged _ _ _ t (handleEvent_of_step hr hi ht)
  rw [s.opened_cfgL] at hcfg
  exact ⟨fun hp => hcfg.trans (if_neg hp), fun hp => hcfg.trans (if_pos hp)⟩

/-- Settles O44: the start of a stream chooses the path, a `UNIT` keeps it, `END` leaves it. -/
theorem phaseTransitions : Obligations.PhaseTransitions := by
  intro s t pins w rest hr hi ht
  have hphase := handleEvent_phase _ _ _ t (handleEvent_of_step hr hi ht)
  rw [s.opened_phase] at hphase
  refine ⟨fun hw => ?_, fun hw hp => ?_, fun hw hp => ?_⟩
  · rw [hphase, hw, if_pos rfl]
  · rw [hphase, hw, if_neg Bool.false_ne_true, if_neg hp]
  · rw [hphase, hw, if_neg Bool.false_ne_true, if_pos hp, pathOf_eq]

/-- Settles O45: every operation a stream in progress can run after an error is silent until `END`. -/
theorem firstErrorSticksAndSilencesRecords : Obligations.FirstErrorSticksAndSilencesRecords := by
  intro s t pins w rest hr hi ht hp he
  have hev := handleEvent_of_step hr hi ht
  rw [s.opened_of_busy pins rest hp] at hev
  refine ⟨fun hw => ?_, fun hw => ?_⟩ <;> rw [hw] at hev
  · exact handleEvent_unit_of_error _ (s.takeEvent pins rest) t he hev
  · exact handleEvent_end_of_error _ (s.takeEvent pins rest) t he hev

/-- Settles O46: `END` reports one result, a `UNIT` takes one octet or stores it. -/
theorem everyEndReportsOnce : Obligations.EveryEndReportsOnce := by
  intro s t pins w rest hr hi ht
  have hev := handleEvent_of_step hr hi ht
  refine ⟨fun hw => ?_, fun hw => ?_⟩ <;> rw [hw] at hev
  · obtain ⟨r, htrace, -⟩ := handleEvent_end_report _ _ t hev
    refine ⟨r.recs, r.status, r.total, r.accepted, ?_⟩
    rw [htrace, s.opened_trace, Result.events_items, List.append_assoc]
  · rw [← s.opened_trace pins rest]
    exact handleEvent_unit_trace _ _ t (s.opened_phase_ne_idle pins rest) hev

/-- Settles O48: in reset both events are refused, and otherwise `END` is handled alike for any data. -/
theorem endDataHasNoEffect : Obligations.EndDataHasNoEffect := by
  intro s pins d e rest
  rw [step_end _ pins d rest rfl, step_end _ pins e rest rfl]
  rfl

/-- Settles O33: the event has left the input when the operation runs. -/
theorem stDiscardChangesNothing : Obligations.StDiscardChangesNothing :=
  fun _ _ => rfl

/-- Settles O34: `FR.FLUSH` gives `closeFrame`, and the report is made from it. -/
theorem stEndSFlushesAndReports : Obligations.StEndSFlushesAndReports :=
  fun s => ⟨s.closeFrame, exec_frFlush s, execStEndS_eq s⟩

namespace Sys2Proof.Machine

/-! ### An event by the row for `PHASE` (R182 to R189) -/

theorem handleEvent_of_collect (fin : Bool) (d : Byte) (c : State) (h : c.phase = .collect) :
    handleEvent fin d c = collectEvent fin d c := by
  simp only [handleEvent, h]

theorem handleEvent_of_not_collect (fin : Bool) (d : Byte) (c : State) (h : c.phase ≠ .collect) :
    handleEvent fin d c = streamEvent fin d c := by
  unfold handleEvent
  split
  · next hp => exact absurd hp h
  · rfl

theorem streamEvent_end (d : Byte) (c : State) :
    streamEvent true d c = .next (c.closeFrame.finish true) := rfl

theorem streamEvent_unit (d : Byte) (c : State) : streamEvent false d c = .next (c.takeOctet d) :=
  framerStep_eq_next d c

theorem collectEvent_end (d : Byte) (c : State) : collectEvent true d c = execStEndC c := rfl

theorem collectEvent_unit_of_error (d : Byte) (c : State) (h : c.err ≠ .ok) :
    collectEvent false d c = .next c := if_pos h

theorem collectEvent_unit_of_ok (d : Byte) (c : State) (h : c.err = .ok) :
    collectEvent false d c = execSbSt d c := if_neg (not_not.mpr h)

/-! ### Earlier output does not steer an event (R60) -/

theorem raise_after (s : State) (e : List TraceItem) (err : Err) :
    (s.after e).raise err = (s.raise err).after e := by
  by_cases h : s.err = .ok
  · rw [s.raise_of_ok err h, (s.after e).raise_of_ok err h]
    rfl
  · rw [s.raise_of_error err h, (s.after e).raise_of_error err h]

theorem execSbSt_after (u : Byte) (s t : State) (e : List TraceItem)
    (hw : withinDepth s.params.bufDepth s.count) (ht : execSbSt u s = .next t) :
    execSbSt u (s.after e) = .next (t.after e) := by
  rcases execSbSt_cases u s t ht with ⟨hfull, rfl⟩ | ⟨hroom, htext, hv, rfl⟩ | ⟨v, hroom, -, hv, rfl⟩
  · rw [← raise_after]
    exact execSbSt_of_full u (s.after e) hfull
  · rw [← raise_after]
    exact execSbSt_of_not_hex u (s.after e) hroom htext (by rw [isHex_eq_isSome, hv]; rfl)
  · have hstore := (s.after e).storeUnit_of_not_full v hw hroom
    rcases hv with ⟨htext, n, hn, rfl⟩ | ⟨hbytes, rfl⟩
    · exact (execSbSt_of_hex u n (s.after e) hroom htext hn).trans hstore
    · exact (execSbSt_of_bytes v (s.after e) hroom hbytes).trans hstore

theorem execStEndC_after (s t : State) (e : List TraceItem) (h : s.InProgress) (hp : s.phase = .collect)
    (ht : execStEndC s = .next t) : execStEndC (s.after e) = .next (t.after e) := by
  obtain ⟨-, hframe, htotal, haccepted, -⟩ := h.collect hp
  by_cases he : s.err = .ok
  · rw [execStEndC_eq s h.dense hframe htotal haccepted he] at ht
    obtain rfl := Host.Outcome.next.inj ht
    rw [execStEndC_eq (s.after e) h.dense hframe htotal haccepted he, State.reported, State.reported]
    simp only [State.after, List.append_assoc]
    rfl
  · rw [execStEndC_of_error s he] at ht
    obtain rfl := Host.Outcome.next.inj ht
    rw [execStEndC_of_error (s.after e) he, finish_after]

theorem handleEvent_after (fin : Bool) (d : Byte) (c t : State) (e : List TraceItem) (h : c.InProgress)
    (ht : handleEvent fin d c = .next t) : handleEvent fin d (c.after e) = .next (t.after e) := by
  rcases handleEvent_cases fin d c t ht with
    ⟨hp, rfl, rfl⟩ | ⟨hp, rfl, rfl⟩ | ⟨hp, rfl, hend⟩ | ⟨hp, rfl, he, rfl⟩ | ⟨hp, rfl, he, hst⟩
  · rw [handleEvent_of_not_collect _ _ (c.after e) hp, streamEvent_end, closeFrame_after, finish_after]
  · rw [handleEvent_of_not_collect _ _ (c.after e) hp, streamEvent_unit, takeOctet_after]
  · rw [handleEvent_of_collect _ _ (c.after e) hp, collectEvent_end, execStEndC_after c t e h hp hend]
  · rw [handleEvent_of_collect _ _ (t.after e) hp, collectEvent_unit_of_error _ (t.after e) he]
  · rw [handleEvent_of_collect _ _ (c.after e) hp, collectEvent_unit_of_ok _ (c.after e) he,
      execSbSt_after d c t e h.capacity hst]

/-- The state a first event is handled in, without the output before it: only the parameters, the reset input
and what the host presents are in it (R60). -/
def State.fresh (s : State) (pins : Cfg) (rest : List HostAct) : State :=
  { (s.takeEvent pins rest).startStream with trace := [] }

theorem opened_eq_fresh_after (s : State) (pins : Cfg) (rest : List HostAct) (hp : s.phase = .idle) :
    s.opened pins rest = (s.fresh pins rest).after s.trace := by
  rw [s.opened_of_idle pins rest hp, State.after, State.fresh, List.append_nil]
  rfl

theorem fresh_eq_of_params (s1 s2 : State) (pins : Cfg) (rest : List HostAct) (hparams : s1.params = s2.params)
    (hrst : s1.rst = s2.rst) : s1.fresh pins rest = s2.fresh pins rest := by
  simp only [State.fresh, State.startStream, State.takeEvent, hparams, hrst]

/-- The first event of a stream goes to one state and emits one output, after whatever was emitted before. -/
theorem step_first_event (s t : State) (pins : Cfg) (w : EventWord) (rest : List HostAct)
    (hp : s.phase = .idle) (hr : s.rst = false) (hi : s.input = .event pins w :: rest)
    (ht : handleEvent w.msb (w.extractLsb' 0 8) (s.fresh pins rest) = .next t) :
    step s = .next (t.after s.trace) := by
  have hfresh : (s.fresh pins rest).InProgress :=
    (startStream_inProgress (s.takeEvent pins rest)).withPorts pins rest none []
  rw [step_event s pins w rest hr hi, opened_eq_fresh_after s pins rest hp]
  exact handleEvent_after _ _ _ t _ hfresh ht

/-! ### Failed batches (R212) -/

theorem recordItems_ne_events (recs : List SensorRecord) (r : Result) :
    recordItems recs ≠ r.events.map .out := by
  intro h
  have hdone : TraceItem.out (.done r.status r.total r.accepted) ∈ recordItems recs := by
    rw [h, r.events_items]
    simp
  simp [recordItems] at hdone

/-- Only a stream that fails before framing reports an error of the collection (R205, R206, R212). -/
theorem report_of_collection_error (d : Byte) (c t : State) (r : Result) (h : c.InProgress)
    (hbusy : c.phase ≠ .idle) (ht : handleEvent true d c = .next t)
    (htrace : t.trace = c.trace ++ r.events.map .out)
    (hstatus : r.status = .malformedInput ∨ r.status = .bufferOverflow ∨ r.status = .badChar) :
    r = failedResult r.status := by
  obtain ⟨q, hq, hcases⟩ := handleEvent_end_report d c t ht
  obtain rfl : r = q := Result.events_injective (List.append_cancel_left (htrace.symm.trans hq))
  rcases hcases with hfailed | hfail | ⟨herr, hcollect⟩
  · exact hfailed
  · simp [hfail] at hstatus
  · exfalso
    by_cases hp : c.phase = .collect
    · simp [herr, hcollect hp] at hstatus
    · obtain ⟨-, -, -, hok | ⟨hfail, -⟩⟩ := h.stream (phase_eq_stream hbusy hp)
      · simp [herr, hok] at hstatus
      · simp [herr, hfail] at hstatus

end Sys2Proof.Machine

/-- Settles O47: a `UNIT` emits no `DONE`, and an `END` with such a status reports a failure before framing. -/
theorem collectionFailuresHoldNoRecord : Obligations.CollectionFailuresHoldNoRecord := by
  intro s t pins w rest recs status total accepted h hr hi ht htrace hstatus
  have hev := handleEvent_of_step hr hi ht
  have hbusy := s.opened_phase_ne_idle pins rest
  have htrace : t.trace =
      (s.opened pins rest).trace ++ (Result.mk recs status total accepted).events.map .out := by
    rw [htrace, s.opened_trace, Result.events_items, List.append_assoc]
  cases hw : w.msb <;> rw [hw] at hev
  · obtain ⟨emitted, hemitted⟩ := exists_recordItems_of_trace
      ((handleEvent_unit_trace _ _ t hbusy hev).imp_right And.right)
    exact absurd (List.append_cancel_left (hemitted.symm.trans htrace)) (recordItems_ne_events _ _)
  · have hfailed := report_of_collection_error _ _ t _ (opened_inProgress s pins rest h) hbusy hev htrace hstatus
    injection hfailed with hrecs _ htotal haccepted
    exact ⟨hrecs, htotal, haccepted⟩

/-- Settles O50: both states handle the event in the same fresh state, each after its own output. -/
theorem streamsAreIndependent : Obligations.StreamsAreIndependent := by
  intro s1 s2 pins w rest _ _ hp1 hp2 hr1 hr2 hparams hi1 hi2
  obtain ⟨t, ht⟩ : ∃ t, handleEvent w.msb (w.extractLsb' 0 8) (s1.fresh pins rest) = .next t :=
    handleEvent_startStream_completes _ _ { s1.takeEvent pins rest with trace := [] }
  refine ⟨t, t.trace, step_first_event s1 t pins w rest hp1 hr1 hi1 ht, ?_⟩
  rw [fresh_eq_of_params s1 s2 pins rest hparams (hr1.trans hr2.symm)] at ht
  exact step_first_event s2 t pins w rest hp2 hr2 hi2 ht

end

section
/-! The whole engine (spec/45_stream_control.md section 3): the run of a stream, on the cut-through path and on
a store-and-forward path, against the function `decode`, and the statements about whole streams. -/

namespace Sys2Proof.Machine

/-! ### Runs -/

/-- A run begins with its first step. -/
theorem run_succ_eq (k : Nat) (s : State) :
    Host.Core.run Sys2Proof.core (k + 1) s = andThen (step s) (Host.Core.run Sys2Proof.core k) := by
  have hstep : Sys2Proof.core.step s = step s := rfl
  simp only [Host.Core.run, hstep]
  cases step s <;> rfl

theorem run_one (s : State) : Host.Core.run Sys2Proof.core 1 s = step s := by
  rw [run_succ_eq]
  cases step s <;> rfl

/-- Runs from two states whose first steps agree are equal. -/
theorem run_congr_of_step (k : Nat) (s s' : State) (h : step s = step s') :
    Host.Core.run Sys2Proof.core (k + 1) s = Host.Core.run Sys2Proof.core (k + 1) s' := by
  rw [run_succ_eq, run_succ_eq, h]

/-- The registers as the first event of a stream finds them, once the configuration is latched (R180). The
event itself is still offered. -/
def State.begun (s : State) (cfg : Cfg) : State := { s with pins := cfg }.startStream

/-- The first event is handled as if the stream had been in progress already. -/
theorem step_begun (s : State) (cfg : Cfg) (w : EventWord) (rest : List HostAct) (hr : s.rst = false)
    (hp : s.phase = .idle) (hi : s.input = .event cfg w :: rest) : step s = step (s.begun cfg) := by
  rw [step_event s cfg w rest hr hi, step_event (s.begun cfg) cfg w rest hr hi, s.opened_of_idle cfg rest hp,
    (s.begun cfg).opened_of_busy cfg rest (pathOf_ne_idle cfg)]
  rfl

theorem step_unit_of_busy (s : State) (u : Cfg × Byte) (rest : List HostAct) (hr : s.rst = false)
    (hp : s.phase ≠ .idle) (hi : s.input = .event u.1 (unitWord u.2) :: rest) :
    step s = handleEvent false u.2 (s.withHost u.1 rest) := by
  rw [step_event s u.1 _ rest hr hi, s.opened_of_busy u.1 rest hp, unitWord_msb, unitWord_data]
  rfl

theorem step_end_of_busy (s : State) (last : Cfg × Byte) (rest : List HostAct) (hr : s.rst = false)
    (hp : s.phase ≠ .idle) (hi : s.input = .event last.1 (endWord last.2) :: rest) :
    step s = handleEvent true 0 (s.withHost last.1 rest) := by
  rw [step_end s last.1 _ rest hi, if_neg (Bool.eq_false_iff.mp hr), s.opened_of_busy last.1 rest hp]
  rfl

/-! ### The cut-through path (R182, R183) -/

/-- The framer takes every unit as it comes, and `END` flushes. -/
theorem run_stream (units : List (Cfg × Byte)) (last : Cfg × Byte) (rest : List HostAct) (s : State)
    (hr : s.rst = false) (hp : s.phase = .stream) (hi : s.input = streamActs units last ++ rest) :
    Host.Core.run Sys2Proof.core (units.length + 1) s =
      .next (((units.map Prod.snd).foldl State.takeOctet (s.withHost last.1 rest)).closeFrame.finish true) := by
  induction units generalizing s with
  | nil =>
    have hp' : (s.withHost last.1 rest).phase ≠ .collect := by simp [State.withHost, hp]
    rw [List.length_nil, Nat.zero_add, run_one, step_end_of_busy s last rest hr (by simp [hp]) hi,
      handleEvent_of_not_collect _ _ _ hp', streamEvent_end]
    rfl
  | cons u units ih =>
    have hstep : step s = .next ((s.takeOctet u.2).withHost u.1 (streamActs units last ++ rest)) := by
      have hp' : (s.withHost u.1 (streamActs units last ++ rest)).phase ≠ .collect := by
        simp [State.withHost, hp]
      rw [step_unit_of_busy s u (streamActs units last ++ rest) hr (by simp [hp]) hi,
        handleEvent_of_not_collect _ _ _ hp', streamEvent_unit, takeOctet_withHost]
    obtain ⟨-, hrst, -, -, hphase, -⟩ := takeOctet_unchanged s u.2
    rw [List.length_cons, run_succ _ s _ hstep,
      ih ((s.takeOctet u.2).withHost ..) (hrst.trans hr) (hphase.trans hp) rfl, List.map_cons, List.foldl_cons,
      takeOctet_withHost]
    rfl

/-- What the run of R182 and R183 reports is the framing of the units (R192). -/
theorem framed_reported (s : State) (octets : List Byte) (hf : s.frame = .empty) (ht : s.total = 0)
    (ha : s.accepted = 0) (he : s.err = .ok) :
    (octets.foldl State.takeOctet s).closeFrame.finish true =
      s.reported (decodeOctets s.params.marker s.cfgL.mode octets) :=
  Host.Outcome.next.inj ((frameAll_eq s octets).symm.trans (frameAll_reported s octets hf ht ha he))

/-! ### A store-and-forward path (R184, R189) -/

/-- After an error the units are discarded, and `END` reports the error alone. -/
theorem run_collect_of_error (units : List (Cfg × Byte)) (last : Cfg × Byte) (rest : List HostAct) (s : State)
    (hr : s.rst = false) (hp : s.phase = .collect) (he : s.err ≠ .ok)
    (hi : s.input = streamActs units last ++ rest) :
    Host.Core.run Sys2Proof.core (units.length + 1) s =
      .next ((s.withHost last.1 rest).reported (failedResult s.err)) := by
  induction units generalizing s with
  | nil =>
    rw [List.length_nil, Nat.zero_add, run_one, step_end_of_busy s last rest hr (by simp [hp]) hi,
      handleEvent_of_collect _ _ (s.withHost last.1 rest) hp, collectEvent_end,
      execStEndC_of_error (s.withHost last.1 rest) he, finish_unframed]
    rfl
  | cons u units ih =>
    have hstep : step s = .next (s.withHost u.1 (streamActs units last ++ rest)) := by
      rw [step_unit_of_busy s u (streamActs units last ++ rest) hr (by simp [hp]) hi,
        handleEvent_of_collect _ _ (s.withHost ..) hp,
        collectEvent_unit_of_error _ (s.withHost ..) he]
    rw [List.length_cons, run_succ _ s _ hstep, ih (s.withHost ..) hr hp he rfl]
    rfl

/-- The units `xs` have been collected without an error: the buffer holds them, as octets or as character
values. -/
structure State.Collected (s : State) (xs : List Byte) : Prop where
  phase : s.phase = .collect
  err : s.err = .ok
  inProgress : s.InProgress
  count : s.count = xs.length
  octets : s.cfgL.text = false → s.sb.map Prod.snd = xs
  chars : s.cfgL.text = true → (s.sb.map fun c => loNibble c.2) = xs.filterMap hexValue
  collected : collectionError s.params.bufDepth s.cfgL.text 0 xs = none

theorem collectionError_append_of_none (d : BufDepth) (text : Bool) (k : Nat) (xs ys : List Byte)
    (h : collectionError d text k xs = none) :
    collectionError d text k (xs ++ ys) = collectionError d text (k + xs.length) ys := by
  induction xs generalizing k with
  | nil => rfl
  | cons x xs ih =>
    rw [collectionError] at h
    split_ifs at h with hcell hhex
    rw [List.cons_append, collectionError, if_neg hcell, if_neg hhex, ih (k + 1) h, List.length_cons,
      Nat.add_right_comm, Nat.add_assoc k]

theorem collectionError_append_of_some (d : BufDepth) (text : Bool) (k : Nat) (xs ys : List Byte) (e : Err)
    (h : collectionError d text k xs = some e) : collectionError d text k (xs ++ ys) = some e := by
  induction xs generalizing k with
  | nil => cases h
  | cons x xs ih =>
    rw [collectionError] at h
    rw [List.cons_append, collectionError]
    split_ifs at h ⊢ with hcell hhex
    · exact h
    · exact h
    · exact ih (k + 1) h

/-- The result of framing, where there is an octet sequence to frame (R192). -/
def resultOf (marker : Byte) (mode : Mode) : Option (List Byte) → Result
  | none => failedResult .malformedInput
  | some octets => decodeOctets marker mode octets

theorem decodeStream_of_cutThrough (p : Params) (cfg : Cfg) (xs : List Byte) (ht : cfg.text = false)
    (hr : cfg.resyncAlways = false) : decodeStream p cfg xs = decodeOctets p.marker cfg.mode xs := by
  simp [decodeStream, octetsToFrame, ht, hr]

theorem decodeStream_of_collected (p : Params) (cfg : Cfg) (xs : List Byte)
    (hpath : cfg.text = true ∨ cfg.resyncAlways = true)
    (h : collectionError p.bufDepth cfg.text 0 xs = none) :
    decodeStream p cfg xs = resultOf p.marker cfg.mode (octetsToFrame p.marker cfg xs) := by
  rw [decodeStream, if_pos (Bool.or_eq_true .. ▸ hpath), h]
  cases octetsToFrame p.marker cfg xs <;> rfl

theorem decodeStream_of_collectionError (p : Params) (cfg : Cfg) (xs : List Byte) (e : Err)
    (hpath : cfg.text = true ∨ cfg.resyncAlways = true)
    (h : collectionError p.bufDepth cfg.text 0 xs = some e) : decodeStream p cfg xs = failedResult e := by
  rw [decodeStream, if_pos (Bool.or_eq_true .. ▸ hpath), h]

/-- `ST.END.C` frames what the buffer holds just as `decode` frames the input (R189, R192). -/
theorem endResult_eq_resultOf (s : State) (xs : List Byte)
    (hpath : s.cfgL.text = true ∨ s.cfgL.resyncAlways = true)
    (hoctets : s.cfgL.text = false → s.sb.map Prod.snd = xs)
    (hchars : s.cfgL.text = true → (s.sb.map fun c => loNibble c.2) = xs.filterMap hexValue) :
    s.endResult = resultOf s.params.marker s.cfgL.mode (octetsToFrame s.params.marker s.cfgL xs) := by
  cases ht : s.cfgL.text with
  | false =>
    have hresync : s.cfgL.resyncAlways = true := by simpa [ht] using hpath
    simp only [State.endResult, octetsToFrame, ht, hresync, hoctets ht, Bool.false_eq_true, if_false, if_true,
      resultOf]
  | true =>
    have hcount : s.count = (xs.filterMap hexValue).length := by
      rw [← hchars ht, List.length_map, State.count_eq]
    simp only [State.endResult, octetsToFrame, adapter, ht, hchars ht, hcount, if_true]
    by_cases hodd : (xs.filterMap hexValue).length % 2 = 1
    · cases resyncText s.params.marker (xs.filterMap hexValue) <;> simp [hodd, resultOf]
    · have heven : (xs.filterMap hexValue).length % 2 = 0 := by omega
      cases hresync : s.cfgL.resyncAlways <;> simp [heven, resultOf]

theorem State.Collected.endResult {s : State} {xs : List Byte} (h : s.Collected xs) :
    s.endResult = decodeStream s.params s.cfgL xs := by
  obtain ⟨hpath, -⟩ := h.inProgress.collect h.phase
  rw [decodeStream_of_collected _ _ _ hpath h.collected]
  exact endResult_eq_resultOf s xs hpath h.octets h.chars

theorem State.Collected.collectionError_snoc {s : State} {xs : List Byte} (h : s.Collected xs) (u : Byte) :
    collectionError s.params.bufDepth s.cfgL.text 0 (xs ++ [u]) =
      if depthReached s.params.bufDepth s.count then some .bufferOverflow
      else if s.cfgL.text && !isHex u then some .badChar else none := by
  rw [collectionError_append_of_none _ _ _ _ _ h.collected, Nat.zero_add, ← h.count, collectionError,
    cellExists_of_withinDepth _ _ h.inProgress.capacity, Bool.not_not]
  rfl

/-- One unit more: stored, or the first error of the stream, as `decode` finds it (R65, R192). -/
theorem State.Collected.execSbSt {s : State} {xs : List Byte} (h : s.Collected xs) (u : Byte) :
    (∃ m, execSbSt u s = .next { s with sb := m } ∧ { s with sb := m }.Collected (xs ++ [u])) ∨
    ∃ e, e ≠ .ok ∧ execSbSt u s = .next { s with err := e } ∧
      collectionError s.params.bufDepth s.cfgL.text 0 (xs ++ [u]) = some e := by
  obtain ⟨t, ht⟩ := execSbSt_completes u s h.inProgress.capacity
  have hnext := h.collectionError_snoc u
  rcases execSbSt_cases u s t ht with ⟨hfull, rfl⟩ | ⟨hroom, htext, hv, rfl⟩ | ⟨v, hroom, hcell, hv, rfl⟩
  · rw [s.raise_of_ok _ h.err] at ht
    exact .inr ⟨_, by simp, ht, by rw [hnext, if_pos hfull]⟩
  · rw [s.raise_of_ok _ h.err] at ht
    refine .inr ⟨_, by simp, ht, hnext.trans ?_⟩
    simp [hroom, htext, isHex_eq_isSome, hv]
  · have hstored : s.sb.write s.count v = s.sb ++ [(s.count, v)] := s.sb.write_dense v h.inProgress.dense
    refine .inl ⟨_, ht, ?_⟩
    have hinv : { s with sb := s.sb.write s.count v }.Inv := by
      refine h.inProgress.withCell h.phase h.err v hcell fun htext => ?_
      obtain ⟨-, n, -, rfl⟩ | ⟨hbytes, -⟩ := hv
      · exact hiNibble_cellOfChar n
      · simp [htext] at hbytes
    have hcount := h.count
    refine ⟨h.phase, h.err, hinv.inProgress, ?_, fun hbytes => ?_, fun htext => ?_, ?_⟩
    · rw [State.count_eq] at hcount ⊢
      simp [hstored, hcount]
    · obtain ⟨htext, -⟩ | ⟨-, rfl⟩ := hv
      · simp [htext] at hbytes
      · simp [hstored, h.octets hbytes]
    · obtain ⟨-, n, hn, rfl⟩ | ⟨hbytes, -⟩ := hv
      · simp [hstored, h.chars htext, hn]
      · simp [hbytes] at htext
    · refine hnext.trans ?_
      rw [if_neg (Bool.eq_false_iff.mp hroom)]
      obtain ⟨-, n, hn, -⟩ | ⟨hbytes, -⟩ := hv
      · simp [isHex_eq_isSome, hn]
      · simp [hbytes]

theorem State.Collected.withHost {s : State} {xs : List Byte} (h : s.Collected xs) (pins : Cfg)
    (input : List HostAct) : (s.withHost pins input).Collected xs :=
  ⟨h.phase, h.err, h.inProgress.withPorts pins input none s.trace, h.count, h.octets, h.chars, h.collected⟩

/-- The units are stored until the first error, and `END` reports what `decode` gives for all of them. -/
theorem run_collect (units : List (Cfg × Byte)) (last : Cfg × Byte) (rest : List HostAct) (s : State)
    (xs : List Byte) (hr : s.rst = false) (h : s.Collected xs) (hi : s.input = streamActs units last ++ rest) :
    Host.Core.run Sys2Proof.core (units.length + 1) s =
      .next ((s.withHost last.1 rest).reported (decodeStream s.params s.cfgL (xs ++ units.map Prod.snd))) := by
  induction units generalizing s xs with
  | nil =>
    obtain ⟨-, hframe, htotal, haccepted, -⟩ := h.inProgress.collect h.phase
    have hend := (h.withHost last.1 rest).endResult
    rw [List.length_nil, Nat.zero_add, run_one, step_end_of_busy s last rest hr (by simp [h.phase]) hi,
      handleEvent_of_collect _ _ (s.withHost last.1 rest) h.phase, collectEvent_end,
      execStEndC_eq (s.withHost last.1 rest) h.inProgress.dense hframe htotal haccepted h.err, hend,
      List.map_nil, List.append_nil]
    rfl
  | cons u units ih =>
    have hunit : step s = execSbSt u.2 (s.withHost u.1 (streamActs units last ++ rest)) := by
      rw [step_unit_of_busy s u (streamActs units last ++ rest) hr (by simp [h.phase]) hi,
        handleEvent_of_collect _ _ (s.withHost ..) h.phase, collectEvent_unit_of_ok _ (s.withHost ..) h.err]
    rw [List.length_cons]
    rcases (h.withHost u.1 (streamActs units last ++ rest)).execSbSt u.2 with
      ⟨m, hst, hcollected⟩ | ⟨e, he, hst, herr⟩
    · rw [run_succ _ s _ (hunit.trans hst), ih { s.withHost .. with sb := m } (xs ++ [u.2]) hr hcollected rfl,
        List.append_assoc]
      rfl
    · obtain ⟨hpath, -⟩ := h.inProgress.collect h.phase
      have hfailed : decodeStream s.params s.cfgL (xs ++ u.2 :: units.map Prod.snd) = failedResult e := by
        refine decodeStream_of_collectionError _ _ _ e hpath ?_
        rw [List.append_cons]
        exact collectionError_append_of_some _ _ _ _ _ e herr
      rw [run_succ _ s _ (hunit.trans hst),
        run_collect_of_error units last rest { s.withHost .. with err := e } hr h.phase he rfl, List.map_cons,
        hfailed]
      rfl

/-! ### A whole stream (R193) -/

theorem begun_collected (s : State) (cfg : Cfg) (h : pathOf cfg = .collect) : (s.begun cfg).Collected [] :=
  ⟨h, rfl, startStream_inProgress _, rfl, fun _ => rfl, fun _ => rfl, rfl⟩

theorem run_begun (s : State) (cfg : Cfg) (units : List (Cfg × Byte)) (last : Cfg × Byte) (rest : List HostAct)
    (hr : s.rst = false) (hi : s.input = streamActs units last ++ rest) :
    Host.Core.run Sys2Proof.core (units.length + 1) (s.begun cfg) =
      .next (((s.begun cfg).withHost last.1 rest).reported
        (decodeStream s.params cfg (units.map Prod.snd))) := by
  by_cases hp : pathOf cfg = .collect
  · exact run_collect units last rest (s.begun cfg) [] hr (begun_collected s cfg hp) hi
  · have hp : pathOf cfg = .stream := phase_eq_stream (pathOf_ne_idle cfg) hp
    obtain ⟨ht, hresync⟩ := (pathOf_eq_stream_iff cfg).mp hp
    rw [run_stream units last rest (s.begun cfg) hr hp hi,
      framed_reported ((s.begun cfg).withHost last.1 rest) _ rfl rfl rfl rfl,
      decodeStream_of_cutThrough _ _ _ ht hresync]
    rfl

/-- The configuration of a stream is presented with its first event. -/
theorem streamActs_first (units : List (Cfg × Byte)) (last : Cfg × Byte) (rest : List HostAct) :
    ∃ w others, streamActs units last ++ rest = .event (streamCfg units last) w :: others := by
  cases units with
  | nil => exact ⟨_, _, rfl⟩
  | cons u units => exact ⟨_, _, rfl⟩

end Sys2Proof.Machine

open Sys2Proof Sys2Proof.Machine

/-- Settles O57: the first event latches the configuration, and from there each path reports what `decode`
gives, by induction over the units. -/
theorem streamAgreesWithDecode : Obligations.StreamAgreesWithDecode := by
  intro s units last rest hr hp hi
  obtain ⟨w, others, hfirst⟩ := streamActs_first units last rest
  rw [run_congr_of_step _ s _ (step_begun s (streamCfg units last) w others hr hp (hi.trans hfirst))]
  exact run_begun s (streamCfg units last) units last rest hr hi

namespace Sys2Proof.Machine

/-! ### The end of a collected stream, by what was collected (R189) -/

theorem endResult_of_bytes (s : State) (ht : s.cfgL.text = false) : s.endResult =
    decodeOctets s.params.marker s.cfgL.mode (resyncBytes s.params.marker (s.sb.map fun c => c.2)) := by
  simp only [State.endResult, ht, Bool.false_eq_true, if_false]

theorem endResult_of_odd_noMarker (s : State) (ht : s.cfgL.text = true) (hodd : s.count % 2 = 1)
    (hw : resyncText s.params.marker (s.sb.map fun c => loNibble c.2) = none) :
    s.endResult = failedResult .malformedInput := by
  simp only [State.endResult, ht, hodd, hw, if_true]

theorem endResult_of_odd_window (s : State) (w : List Nibble) (ht : s.cfgL.text = true)
    (hodd : s.count % 2 = 1)
    (hw : resyncText s.params.marker (s.sb.map fun c => loNibble c.2) = some w) :
    s.endResult = decodeOctets s.params.marker s.cfgL.mode (hex2oct (trimEven w)) := by
  simp only [State.endResult, ht, hodd, hw, if_true]

theorem endResult_of_even (s : State) (ht : s.cfgL.text = true) (heven : s.count % 2 = 0)
    (hresync : s.cfgL.resyncAlways = false) : s.endResult =
      decodeOctets s.params.marker s.cfgL.mode (hex2oct (s.sb.map fun c => loNibble c.2)) := by
  simp only [State.endResult, ht, heven, hresync, Bool.false_eq_true, if_false, if_true, Nat.zero_ne_one]

theorem endResult_of_even_resync (s : State) (ht : s.cfgL.text = true) (heven : s.count % 2 = 0)
    (hresync : s.cfgL.resyncAlways = true) : s.endResult =
      decodeOctets s.params.marker s.cfgL.mode
        (resyncBytes s.params.marker (hex2oct (s.sb.map fun c => loNibble c.2))) := by
  simp only [State.endResult, ht, heven, hresync, if_false, if_true, Nat.zero_ne_one]

/-! ### The empty stream (R194 (g)) -/

/-- Nothing is collected, and framing nothing closes one empty frame. -/
theorem decodeStream_nil (p : Params) (cfg : Cfg) : decodeStream p cfg [] = ⟨[], .ok, 1, 0⟩ := by
  obtain ⟨mode, text, resync⟩ := cfg
  cases text <;> cases resync <;> rfl

/-! ### The sink (R213, R231, R243) -/

theorem sinkAfter_append (before after : List TraceItem) :
    sinkAfter (before ++ after) = after.foldl Sink.take (sinkAfter before) := List.foldl_append

/-- The records of a batch are committed at its `DONE`, when the status is 0. -/
theorem sinkAfter_report (before : List TraceItem) (r : Result) (h : (sinkAfter before).pending = []) :
    sinkAfter (before ++ r.events.map .out) =
      ⟨[], (sinkAfter before).committed ++ if r.status = .ok then r.recs else []⟩ := by
  rw [sinkAfter_append, r.events_items, List.foldl_append, foldl_take_recordItems, h, List.nil_append]
  by_cases hs : r.status = .ok <;> simp [Sink.take, hs]

/-- Records that a reset overtakes are discarded. -/
theorem sinkAfter_reset (before : List TraceItem) (recs : List SensorRecord) :
    sinkAfter (before ++ recordItems recs ++ [.resetAsserted]) = ⟨[], (sinkAfter before).committed⟩ := by
  rw [sinkAfter_append, sinkAfter_append, foldl_take_recordItems]
  rfl

/-! ### A stream cut by reset (R231) -/

theorem step_unit_records (s : State) (u : Cfg × Byte) (rest : List HostAct) (h : s.Inv) (hr : s.rst = false)
    (hi : s.input = .event u.1 (unitWord u.2) :: rest) :
    ∃ t recs, step s = .next t ∧ t.Inv ∧ t.rst = false ∧ t.input = rest ∧
      t.trace = s.trace ++ recordItems recs := by
  obtain ⟨t, ht⟩ := step_event_completes s u.1 _ rest h hr hi
  have hev := handleEvent_of_step hr hi ht
  obtain ⟨-, -, hrst, -, hinput, -⟩ := handleEvent_unchanged _ _ _ t hev
  rw [unitWord_msb] at hev
  obtain ⟨recs, hrecs⟩ := exists_recordItems_of_trace
    ((handleEvent_unit_trace _ _ t (s.opened_phase_ne_idle u.1 rest) hev).imp_right And.right)
  rw [s.opened_rst] at hrst
  rw [s.opened_input] at hinput
  rw [s.opened_trace] at hrecs
  exact ⟨t, recs, ht, step_inv s t h ht, hrst.trans hr, hinput, hrecs⟩

theorem run_assertReset (s : State) (rest : List HostAct) (hr : s.rst = false)
    (hi : s.input = .reset true :: rest) : Host.Core.run Sys2Proof.core 1 s =
      .next { s with rst := true, input := rest, trace := s.trace ++ [.resetAsserted] } := by
  obtain ⟨hassert, -⟩ := resetGivesResetState s rest
  exact (run_one s).trans (hassert hr hi)

/-- Units and then the assertion of reset: the trace grows by records and the mark. -/
theorem run_cut_by_reset (units : List (Cfg × Byte)) (rest : List HostAct) (s : State) (h : s.Inv)
    (hr : s.rst = false)
    (hi : s.input = units.map (fun u => .event u.1 (unitWord u.2)) ++ .reset true :: rest) :
    ∃ t recs, Host.Core.run Sys2Proof.core (units.length + 1) s = .next t ∧
      t.trace = s.trace ++ recordItems recs ++ [.resetAsserted] := by
  induction units generalizing s with
  | nil =>
    exact ⟨_, [], run_assertReset s rest hr hi, by simp [recordItems]⟩
  | cons u units ih =>
    obtain ⟨c, first, hstep, hinv, hrst, hinput, hfirst⟩ := step_unit_records s u _ h hr hi
    obtain ⟨t, others, hrun, htrace⟩ := ih c hinv hrst hinput
    refine ⟨t, first ++ others, (run_succ _ s c hstep).trans hrun, ?_⟩
    rw [htrace, hfirst, recordItems_append, List.append_assoc s.trace]

/-- A state between streams with every register at its reset value. -/
def State.cleared (s : State) : State :=
  { s with frame := .empty, total := 0, accepted := 0, err := .ok, sb := [] }

theorem cleared_inv (s : State) (hp : s.phase = .idle) : s.cleared.Inv :=
  inv_of_reset_registers s.cleared hp rfl rfl rfl rfl rfl

/-- The first event of a stream clears the registers anyway (R180). -/
theorem step_cleared (s : State) (pins : Cfg) (w : EventWord) (rest : List HostAct) (hr : s.rst = false)
    (hp : s.phase = .idle) (hi : s.input = .event pins w :: rest) : step s = step s.cleared := by
  rw [step_event s pins w rest hr hi, step_event s.cleared pins w rest hr hi, s.opened_of_idle pins rest hp,
    s.cleared.opened_of_idle pins rest hp]
  rfl

theorem run_cut_by_reset_of_idle (units : List (Cfg × Byte)) (rest : List HostAct) (s : State)
    (hr : s.rst = false) (hp : s.phase = .idle)
    (hi : s.input = units.map (fun u => .event u.1 (unitWord u.2)) ++ .reset true :: rest) :
    ∃ t recs, Host.Core.run Sys2Proof.core (units.length + 1) s = .next t ∧
      t.trace = s.trace ++ recordItems recs ++ [.resetAsserted] := by
  have hstep : units = [] ∨ step s = step s.cleared := by
    cases units with
    | nil => exact .inl rfl
    | cons u units => exact .inr (step_cleared s u.1 _ _ hr hp hi)
  obtain rfl | hstep := hstep
  · exact ⟨_, [], run_assertReset s rest hr hi, by simp [recordItems]⟩
  · rw [run_congr_of_step _ s _ hstep]
    exact run_cut_by_reset units rest s.cleared (cleared_inv s hp) hr hi

end Sys2Proof.Machine

/-- Settles O35: under the invariant `ST.END.C` reports the error of the collection or `endResult`, one
equation of which answers each clause. -/
theorem stEndCFramesWhatWasCollected : Obligations.StEndCFramesWhatWasCollected := by
  intro s h hp
  obtain ⟨-, hframe, htotal, haccepted, -⟩ := h.collect hp
  by_cases he : s.err = .ok
  · exact ⟨s.endResult, execStEndC_eq s h.dense hframe htotal haccepted he, fun hne => absurd he hne,
      fun _ ht => endResult_of_bytes s ht,
      fun _ ht hodd => ⟨endResult_of_odd_noMarker s ht hodd, fun w hw => endResult_of_odd_window s w ht hodd hw⟩,
      fun _ ht heven => ⟨endResult_of_even s ht heven, endResult_of_even_resync s ht heven⟩⟩
  · exact ⟨failedResult s.err, execStEndC_of_error s he, fun _ => rfl, fun h => absurd h he,
      fun h => absurd h he, fun h => absurd h he⟩

/-- Settles O49: the run of a stream without units is one step, and `decode` of nothing closes one frame. -/
theorem emptyStreamIsNoError : Obligations.EmptyStreamIsNoError := by
  intro s pins d rest hr hp hi
  have hrun := streamAgreesWithDecode s [] (pins, d) rest hr hp hi
  refine ⟨_, (run_one s).symm.trans hrun, rfl, ?_⟩
  rw [List.map_nil, decodeStream_nil]
  rfl

/-- Settles O60: a whole stream adds the events of `decode`, a stream cut by reset adds records and the mark. -/
theorem sinkCommitsOnlyGoodBatches : Obligations.SinkCommitsOnlyGoodBatches := by
  intro s units last rest hr hp hpending
  refine ⟨fun hi => ?_, fun hi => ?_⟩
  · exact ⟨_, streamAgreesWithDecode s units last rest hr hp hi, sinkAfter_report s.trace _ hpending⟩
  · obtain ⟨t, recs, hrun, htrace⟩ := run_cut_by_reset_of_idle units rest s hr hp hi
    exact ⟨t, hrun, htrace ▸ sinkAfter_reset s.trace recs⟩

end

section
/-! The framer as a function (spec/42_framer.md sections 1 to 3, spec/70_reset_and_hazards.md section 3): what
the framer and validator operations leave unchanged, and how a sequence falls into candidate frames. -/

namespace Sys2Proof.Machine

/-! ### What the framer and validator operations leave unchanged (R134, R136) -/

/-- `t` differs from `s` in the frame and the counts at most, but for one record or one `DecodeFailure`. -/
structure State.KeptByFramer (s t : State) : Prop where
  params : t.params = s.params
  rst : t.rst = s.rst
  pins : t.pins = s.pins
  input : t.input = s.input
  phase : t.phase = s.phase
  cfgL : t.cfgL = s.cfgL
  bus : t.bus = s.bus
  sb : t.sb = s.sb
  err : t.err = s.err ∨ (s.err = .ok ∧ t.err = .decodeFailure)
  trace : t.trace = s.trace ∨ ∃ r, s.err = .ok ∧ t.trace = s.trace ++ [.out (.record r)]

theorem State.KeptByFramer.withFrame {s t : State} (h : s.KeptByFramer t) (f : Frame) :
    s.KeptByFramer { t with frame := f } :=
  ⟨h.params, h.rst, h.pins, h.input, h.phase, h.cfgL, h.bus, h.sb, h.err, h.trace⟩

/-- Counting a frame in `TOTAL` before makes no difference to what is kept. -/
theorem State.KeptByFramer.ofTotal {s t : State} {total : Count}
    (h : { s with total := total }.KeptByFramer t) : s.KeptByFramer t :=
  ⟨h.params, h.rst, h.pins, h.input, h.phase, h.cfgL, h.bus, h.sb, h.err, h.trace⟩

theorem keptByFramer_refl (s : State) : s.KeptByFramer s :=
  ⟨rfl, rfl, rfl, rfl, rfl, rfl, rfl, rfl, .inl rfl, .inl rfl⟩

theorem acceptFrame_kept (s : State) (f : ValidFrame) : s.KeptByFramer (s.acceptFrame f) := by
  rcases acceptFrame_cases s f with ⟨-, h⟩ | ⟨r, he, -, h⟩ | ⟨he, -, h⟩ <;> rw [h]
  · exact ⟨rfl, rfl, rfl, rfl, rfl, rfl, rfl, rfl, .inl rfl, .inl rfl⟩
  · exact ⟨rfl, rfl, rfl, rfl, rfl, rfl, rfl, rfl, .inl rfl, .inr ⟨r, he, rfl⟩⟩
  · exact ⟨rfl, rfl, rfl, rfl, rfl, rfl, rfl, rfl, .inr ⟨he, rfl⟩, .inl rfl⟩

/-- `FR.CLOSE` writes `TOTAL` and the frame; the rest is `VAL.ACCEPT` or nothing. -/
theorem closeFrame_kept (s : State) : s.KeptByFramer s.closeFrame := by
  cases hv : validated s.params.marker s.frame with
  | none =>
    rw [closeFrame_of_rejected s hv]
    exact (keptByFramer_refl { s with total := satInc s.total }).ofTotal.withFrame .empty
  | some f =>
    rw [closeFrame_of_accepted s f hv]
    exact (acceptFrame_kept { s with total := satInc s.total } f).ofTotal.withFrame .empty

theorem execFrAppend_kept (b : Byte) (s t : State) (h : execFrAppend b s = .next t) : s.KeptByFramer t := by
  unfold execFrAppend at h
  split at h
  · next f _ =>
    obtain rfl := Host.Outcome.next.inj h
    exact (keptByFramer_refl s).withFrame f
  · cases h

end Sys2Proof.Machine

open Sys2Proof Sys2Proof.Machine

/-- Settles O13: the operations close the frame, accept it, or only write the frame. -/
theorem framerOperationsFrame : Obligations.FramerOperationsFrame := by
  intro i s t hi ht
  have hkept : s.KeptByFramer t := by
    rcases hi with rfl | ⟨b, rfl⟩ | ⟨b, rfl⟩ | rfl | rfl | ⟨f, rfl⟩ | ⟨f, rfl⟩
    · obtain rfl := Host.Outcome.next.inj ht
      exact (closeFrame_kept s).withFrame _
    · obtain rfl := Host.Outcome.next.inj ht
      exact (closeFrame_kept s).withFrame _
    · exact execFrAppend_kept b s t ht
    · obtain rfl := Host.Outcome.next.inj ht
      exact closeFrame_kept s
    · obtain rfl := Host.Outcome.next.inj ht
      exact closeFrame_kept s
    · obtain rfl := Host.Outcome.next.inj ht
      exact acceptFrame_kept s f
    · obtain rfl := Host.Outcome.next.inj ht
      exact keptByFramer_refl s
  exact ⟨hkept.params, hkept.rst, hkept.pins, hkept.input, hkept.phase, hkept.cfgL, hkept.bus,
    congrArg List.length hkept.sb, fun a => by rw [hkept.sb], hkept.err, hkept.trace⟩

namespace Sys2Proof.Machine

/-! ### The loop of R137 -/

theorem frameLoop_cut (m b : Byte) (cur rest : List Byte) (h : b = m ∨ cur.length = frameWidth) :
    frameLoop m cur (b :: rest) = cur :: frameLoop m [b] rest := if_pos h

theorem frameLoop_append (m b : Byte) (cur rest : List Byte) (h : ¬ (b = m ∨ cur.length = frameWidth)) :
    frameLoop m cur (b :: rest) = frameLoop m (cur ++ [b]) rest := if_neg h

theorem frameLoop_flatten (m : Byte) (cur s : List Byte) : (frameLoop m cur s).flatten = cur ++ s := by
  induction s generalizing cur with
  | nil => simp [frameLoop]
  | cons b rest ih =>
    by_cases h : b = m ∨ cur.length = frameWidth
    · rw [frameLoop_cut m b cur rest h, List.flatten_cons, ih, List.singleton_append]
    · rw [frameLoop_append m b cur rest h, ih, ← List.append_cons]

theorem frames_flatten (m : Byte) (s : List Byte) : (frames m s).flatten = s := frameLoop_flatten m [] s

theorem length_le_of_mem_frameLoop (m : Byte) (cur s : List Byte) (hcur : cur.length ≤ frameWidth) :
    ∀ f ∈ frameLoop m cur s, f.length ≤ frameWidth := by
  induction s generalizing cur with
  | nil => simpa [frameLoop] using hcur
  | cons b rest ih =>
    by_cases h : b = m ∨ cur.length = frameWidth
    · rw [frameLoop_cut m b cur rest h, List.forall_mem_cons]
      exact ⟨hcur, ih [b] (by simp)⟩
    · rw [frameLoop_append m b cur rest h]
      have hlen : cur.length ≠ frameWidth := fun hlen => h (.inr hlen)
      exact ih _ (by simp only [List.length_append, List.length_singleton]; omega)

/-- A frame that is opened holds its first octet, so only a frame that was empty at the start stays empty. -/
theorem nil_notMem_frameLoop (m : Byte) (cur s : List Byte) (hcur : cur ≠ []) : [] ∉ frameLoop m cur s := by
  induction s generalizing cur with
  | nil => simpa [frameLoop] using hcur.symm
  | cons b rest ih =>
    by_cases h : b = m ∨ cur.length = frameWidth
    · rw [frameLoop_cut m b cur rest h, List.mem_cons, not_or]
      exact ⟨hcur.symm, ih [b] (by simp)⟩
    · rw [frameLoop_append m b cur rest h]
      exact ih _ (by simp)

theorem frames_marker_cons (m : Byte) (rest : List Byte) :
    frames m (m :: rest) = [] :: frameLoop m [m] rest := frameLoop_cut m m [] rest (.inl rfl)

theorem frames_other_cons (m b : Byte) (rest : List Byte) (h : b ≠ m) :
    frames m (b :: rest) = frameLoop m [b] rest := frameLoop_append m b [] rest (by simp [h])

/-- The framer cuts at every marker, so a marker stands at the head of its frame only (R135 (b)). -/
theorem marker_notMem_tail_of_mem_frameLoop (m : Byte) (cur s : List Byte) (hcur : m ∉ cur.tail) :
    ∀ f ∈ frameLoop m cur s, m ∉ f.tail := by
  induction s generalizing cur with
  | nil => simpa [frameLoop] using hcur
  | cons b rest ih =>
    by_cases h : b = m ∨ cur.length = frameWidth
    · rw [frameLoop_cut m b cur rest h, List.forall_mem_cons]
      exact ⟨hcur, ih [b] (by simp)⟩
    · rw [frameLoop_append m b cur rest h]
      refine ih _ ?_
      have hb : m ≠ b := fun hb => h (.inl hb.symm)
      cases cur <;> simp_all

/-! ### Accepted candidates -/

theorem validFrame_nil (m : Byte) : validFrame m [] = none := rfl

theorem validFrame_frameOfFields (m : Byte) (v : ValidFrame) :
    validFrame m (frameOctets (frameOfFields m v)) = some v := by
  rw [validFrame, frameOfOctets_frameOctets, Option.bind_some, validated_frameOfFields]

theorem one_le_count_of_validFrame (m : Byte) (f : List Byte) (v : ValidFrame) (h : validFrame m f = some v) :
    1 ≤ f.count m := by
  rw [validFrame_octets m f v h, List.count_cons_self]
  omega

/-- Each accepted frame brings its own marker (R140). -/
theorem length_filterMap_validFrame_le (m : Byte) (fs : List (List Byte)) :
    (fs.filterMap (validFrame m)).length ≤ fs.flatten.count m := by
  induction fs with
  | nil => simp
  | cons f rest ih =>
    rw [List.flatten_cons, List.count_append]
    cases hv : validFrame m f with
    | none =>
      rw [List.filterMap_cons_none hv]
      omega
    | some v =>
      have := one_le_count_of_validFrame m f v hv
      rw [List.filterMap_cons_some hv, List.length_cons]
      omega

theorem accepted_le_count (m : Byte) (s : List Byte) :
    ((frames m s).filterMap (validFrame m)).length ≤ s.count m := by
  have h := length_filterMap_validFrame_le m (frames m s)
  rwa [frames_flatten] at h

/-- Without an accepted frame there is no record and no error. -/
theorem decodeOctets_of_none_accepted (m : Byte) (mode : Mode) (s : List Byte)
    (h : (frames m s).filterMap (validFrame m) = []) :
    decodeOctets m mode s = ⟨[], .ok, saturate (frames m s).length, 0⟩ := by
  simp only [decodeOctets, h]
  rfl

/-! ### Clean packets (R139) -/

/-- A packet without an inner marker: the marker cuts, the rest is appended. -/
theorem frameLoop_packet (m c hi lo : Byte) (cur rest : List Byte) (hc : c ≠ m) (hhi : hi ≠ m) (hlo : lo ≠ m) :
    frameLoop m cur (m :: c :: hi :: lo :: rest) = cur :: frameLoop m [m, c, hi, lo] rest := by
  rw [frameLoop_cut m m cur _ (.inl rfl), frameLoop_append m c _ _ (by simp [hc]),
    frameLoop_append m hi _ _ (by simp [hhi]), frameLoop_append m lo _ _ (by simp [hlo])]
  rfl

theorem frameLoop_flatMap_packets (m : Byte) (fs : List ValidFrame) (cur : List Byte)
    (h : ∀ f ∈ fs, f.counter.setWidth 8 ≠ m ∧ f.hi ≠ m ∧ f.lo ≠ m) :
    frameLoop m cur (fs.flatMap fun f => frameOctets (frameOfFields m f)) =
      cur :: fs.map fun f => frameOctets (frameOfFields m f) := by
  induction fs generalizing cur with
  | nil => rfl
  | cons f rest ih =>
    obtain ⟨⟨hc, hhi, hlo⟩, hrest⟩ := List.forall_mem_cons.mp h
    rw [List.flatMap_cons, List.map_cons, ← ih (frameOctets (frameOfFields m f)) hrest]
    exact frameLoop_packet m _ f.hi f.lo cur _ hc hhi hlo

/-! ### Packets with an inner marker (R238, R247) -/

/-- Where no frame can fill up, the framer cuts at the markers alone. -/
theorem length_frameLoop_of_short (m : Byte) (cur s : List Byte) (h : cur.length + s.length ≤ frameWidth) :
    (frameLoop m cur s).length = 1 + s.count m := by
  induction s generalizing cur with
  | nil => rfl
  | cons b rest ih =>
    rw [List.length_cons] at h
    by_cases hb : b = m
    · have hshort : [b].length + rest.length ≤ frameWidth := by
        rw [List.length_singleton]
        omega
      rw [frameLoop_cut m b cur rest (.inl hb), List.length_cons, ih [b] hshort, hb, List.count_cons_self]
      omega
    · have hroom : ¬ (b = m ∨ cur.length = frameWidth) := not_or.mpr ⟨hb, by omega⟩
      have hshort : (cur ++ [b]).length + rest.length ≤ frameWidth := by
        rw [List.length_append, List.length_singleton]
        omega
      rw [frameLoop_append m b cur rest hroom, ih _ hshort, List.count_cons_of_ne hb]

/-- The octets of an accepted frame after its marker differ from the marker. -/
theorem fields_ne_marker_of_accepted (m : Byte) (s : List Byte) (v : ValidFrame)
    (h : v ∈ (frames m s).filterMap (validFrame m)) :
    v.counter.setWidth 8 ≠ m ∧ v.hi ≠ m ∧ v.lo ≠ m := by
  obtain ⟨f, hf, hv⟩ := List.mem_filterMap.mp h
  have htail := marker_notMem_tail_of_mem_frameLoop m [] s (by simp) f hf
  rw [validFrame_octets m f v hv] at htail
  simp only [List.tail_cons, List.mem_cons, List.not_mem_nil, or_false, not_or] at htail
  obtain ⟨hc, hhi, hlo⟩ := htail
  exact ⟨Ne.symm hc, Ne.symm hhi, Ne.symm hlo⟩

/-- An accepted frame of a stream of 4 octets is the whole stream. -/
theorem packet_eq_of_accepted (m c hi lo : Byte) (v : ValidFrame)
    (h : v ∈ (frames m [m, c, hi, lo]).filterMap (validFrame m)) :
    [m, v.counter.setWidth 8, v.hi, v.lo] = [m, c, hi, lo] := by
  obtain ⟨f, hf, hv⟩ := List.mem_filterMap.mp h
  have hsub := List.sublist_flatten_of_mem hf
  rw [frames_flatten, validFrame_octets m f v hv] at hsub
  exact hsub.eq_of_length rfl

theorem accepted_eq_nil_of_inner_marker (m c hi lo : Byte) (h : c = m ∨ hi = m ∨ lo = m) :
    (frames m [m, c, hi, lo]).filterMap (validFrame m) = [] := by
  refine List.eq_nil_iff_forall_not_mem.mpr fun v hv => ?_
  obtain ⟨hc, hhi, hlo⟩ := fields_ne_marker_of_accepted m _ v hv
  have heq := packet_eq_of_accepted m c hi lo v hv
  simp only [List.cons.injEq, true_and, and_true] at heq
  obtain ⟨rfl, rfl, rfl⟩ := heq
  simp [hc, hhi, hlo] at h

/-- What stands before a marker is framed alone, and the marker opens a new frame (R130). -/
theorem frameLoop_append_marker (m : Byte) (cur before after : List Byte) :
    frameLoop m cur (before ++ m :: after) = frameLoop m cur before ++ frameLoop m [m] after := by
  induction before generalizing cur with
  | nil => exact frameLoop_cut m m cur after (.inl rfl)
  | cons b rest ih =>
    by_cases h : b = m ∨ cur.length = frameWidth
    · rw [List.cons_append, frameLoop_cut m b cur _ h, frameLoop_cut m b cur _ h, ih, List.cons_append]
    · rw [List.cons_append, frameLoop_append m b cur _ h, frameLoop_append m b cur _ h, ih]

/-- Every record carries the counter of an accepted frame, and in mode 0 its big-endian payload. -/
theorem exists_accepted_of_mem_recs (m : Byte) (mode : Mode) (s : List Byte) (r : SensorRecord)
    (h : r ∈ (decodeOctets m mode s).recs) : ∃ v ∈ (frames m s).filterMap (validFrame m),
      r.counter = v.counter ∧ (mode = .scaledInteger → r.centi.toNat = v.hi.toNat * 256 + v.lo.toNat) := by
  obtain ⟨v, hv, hr⟩ := exists_of_mem_unpackAll m mode _ r h
  refine ⟨v, hv, ?_, fun hmode => ?_⟩
  · obtain ⟨c, -, rfl⟩ := Option.map_eq_some_iff.mp hr
    rfl
  · subst hmode
    obtain rfl := Option.some.inj ((unpack_scaled m v).symm.trans hr)
    exact unpackScaled_toNat v

theorem toNat_counter_ne (v : BitVec 7) (m : Byte) (h : v.setWidth 8 ≠ m) : v.toNat ≠ m.toNat := by
  intro heq
  refine h (BitVec.eq_of_toNat_eq ?_)
  have := v.isLt
  rw [BitVec.toNat_setWidth]
  omega

end Sys2Proof.Machine

/-- Settles O14: the loop appends every octet to the open frame or opens a frame with it. -/
theorem framesPartitionTheOctets : Obligations.FramesPartitionTheOctets := by
  intro m s
  refine ⟨frames_flatten m s, length_le_of_mem_frameLoop m [] s (by simp), ?_⟩
  cases s with
  | nil => simp [frames, frameLoop]
  | cons b rest =>
    have hopened := nil_notMem_frameLoop m [b] rest (by simp)
    by_cases hb : b = m
    · subst hb
      rw [frames_marker_cons]
      simpa using hopened
    · rw [frames_other_cons m b rest hb]
      refine ⟨fun h => hopened (List.mem_of_mem_tail h), ?_⟩
      simp only [List.head?_cons, Option.some.injEq, hb, reduceCtorEq, or_self, iff_false]
      exact fun h => hopened (List.mem_of_mem_head? h)

/-- Settles O15: each packet closes the frame before it and is then the open frame. -/
theorem roundTripFraming : Obligations.RoundTripFraming := by
  intro m fs h _
  have hframes : frames m (fs.flatMap fun f => frameOctets (frameOfFields m f)) =
      [] :: fs.map fun f => frameOctets (frameOfFields m f) := frameLoop_flatMap_packets m fs [] h
  refine ⟨hframes, ?_⟩
  rw [hframes, List.filterMap_cons_none (validFrame_nil m), List.filterMap_map]
  simp only [Function.comp_def, validFrame_frameOfFields, List.filterMap_some]

/-- Settles O16: an accepted frame starts with a marker of its own. -/
theorem acceptedFramesNeedMarkers : Obligations.AcceptedFramesNeedMarkers := by
  intro m mode s
  refine ⟨accepted_le_count m s, fun hm => ?_⟩
  have hnone : (frames m s).filterMap (validFrame m) = [] := by
    have h := accepted_le_count m s
    rw [List.count_eq_zero_of_not_mem hm] at h
    exact List.eq_nil_of_length_eq_zero (Nat.le_zero.mp h)
  rw [decodeOctets_of_none_accepted m mode s hnone]
  exact ⟨rfl, rfl⟩

/-- Settles O17: the framer cuts at every marker, so an accepted frame holds it at its head only. -/
theorem payloadMarkerLosesPacket : Obligations.PayloadMarkerLosesPacket := by
  intro m mode
  refine ⟨fun c hi lo h => ?_, fun before after => ?_, fun s r hr => ?_, fun hm k => ?_⟩
  · have hlength : (frames m [m, c, hi, lo]).length = 1 + [m, c, hi, lo].count m :=
      length_frameLoop_of_short m [] [m, c, hi, lo] (by simp)
    have hcount : [m, c, hi, lo].count m ≤ 4 := List.count_le_length
    rw [decodeOctets_of_none_accepted m mode _ (accepted_eq_nil_of_inner_marker m c hi lo h), hlength, saturate,
      min_eq_left (by omega)]
  · rw [frames_marker_cons]
    exact frameLoop_append_marker m [] before after
  · obtain ⟨v, hv, hcounter, hcenti⟩ := exists_accepted_of_mem_recs m mode s r hr
    obtain ⟨hc, hhi, hlo⟩ := fields_ne_marker_of_accepted m s v hv
    refine ⟨hcounter ▸ toNat_counter_ne v.counter m hc, fun hmode => ?_⟩
    have hhi : v.hi.toNat ≠ m.toNat := fun h => hhi (BitVec.eq_of_toNat_eq h)
    have hlo : v.lo.toNat ≠ m.toNat := fun h => hlo (BitVec.eq_of_toNat_eq h)
    have := v.lo.isLt
    rw [hcenti hmode]
    omega
  · have := k.isLt
    omega

end

section
/-! The windows of the resynchronizer (spec/41_resync.md sections 2 to 4): where a window lies and how it
starts, and what resynchronizing a clean stream gives. -/

namespace Sys2Proof.Machine

/-! ### A window is a part of the stream that starts at a marker (R113, R116, R120) -/

/-- Everything `resync_bytes` can give. -/
theorem resyncBytes_cases (m : Byte) (s : List Byte) : resyncBytes m s = [] ∨
    ∃ first stop, s[first]? = some m ∧ resyncBytes m s = slice s first stop := by
  cases hf : firstB m s with
  | none => exact .inl (by simp only [resyncBytes, hf])
  | some first =>
    obtain ⟨last, hl, -⟩ := greatest_isSome_of_least _ _ _ hf
    obtain ⟨-, hsync, -⟩ := (least_eq_some _ _ _).mp hf
    exact .inr ⟨first, _, (syncAt_iff m s first).mp hsync, resyncBytes_of_ends m s first last hf hl⟩

theorem resyncText_eq_slice (m : Byte) (t w : List Nibble) (h : resyncText m t = some w) :
    ∃ first stop, occText m t first = true ∧ w = slice t first stop := by
  cases hf : firstT m t with
  | none => simp [resyncText, hf] at h
  | some first =>
    obtain ⟨last, hl, -⟩ := greatest_isSome_of_least _ _ _ hf
    obtain ⟨-, hocc, -⟩ := (least_eq_some _ _ _).mp hf
    rw [resyncText_of_ends m t first last hf hl, Option.some.injEq] at h
    exact ⟨first, _, hocc, h.symm⟩

/-- From an occurrence on, the text is the two nibbles of the marker and a rest. -/
theorem slice_of_occText (m : Byte) (t : List Nibble) (first stop : Nat) (h : occText m t first = true) :
    slice t first stop =
      (hiNibble m :: loNibble m :: t.drop (first + 2)).take (stop - first) := by
  obtain ⟨hhi, hlo⟩ := (occText_iff m t first).mp h
  obtain ⟨hlt, hhi⟩ := List.getElem?_eq_some_iff.mp hhi
  obtain ⟨hlt', hlo⟩ := List.getElem?_eq_some_iff.mp hlo
  rw [slice, List.drop_take, List.drop_eq_getElem_cons hlt, List.drop_eq_getElem_cons hlt', hhi, hlo]

/-- An odd-length text loses its last character only, never its first pair (R102). -/
theorem trimEven_cons_cons (a b : Nibble) (rest : List Nibble) :
    trimEven (a :: b :: rest) = a :: b :: trimEven rest := by
  simp only [trimEven_eq, List.length_cons, Nat.add_mod_right, Nat.add_assoc]
  split
  · rfl
  · next hodd =>
    have hne : rest ≠ [] := by
      rintro rfl
      simp at hodd
    rw [List.dropLast_cons_of_ne_nil (by simp), List.dropLast_cons_of_ne_nil hne]

theorem hex2oct_trimEven_cons_cons (a b : Nibble) (rest : List Nibble) :
    hex2oct (trimEven (a :: b :: rest)) = octetOfPair a b :: hex2oct (trimEven rest) := by
  rw [trimEven_cons_cons, hex2oct]

/-- A part of a text that starts at an occurrence holds the marker as far as it is long enough. -/
theorem take_of_occurrence (m : Byte) (rest : List Nibble) (n : Nat) :
    ((hiNibble m :: loNibble m :: rest).take n).take 2 =
        [hiNibble m, loNibble m].take ((hiNibble m :: loNibble m :: rest).take n).length ∧
      (hex2oct (trimEven ((hiNibble m :: loNibble m :: rest).take n)) = [] ∨
        (hex2oct (trimEven ((hiNibble m :: loNibble m :: rest).take n))).head? = some m) := by
  match n with
  | 0 => exact ⟨rfl, .inl rfl⟩
  | 1 => exact ⟨rfl, .inl rfl⟩
  | n + 2 =>
    simp only [List.take_succ_cons, hex2oct_trimEven_cons_cons, octetOfPair_nibbles]
    exact ⟨by simp, .inr rfl⟩

/-! ### Clean streams (R119) -/

/-- Fewer units than a frame follow the last marker, so the window ends with the stream. -/
theorem windowEnd_eq_length_of_le (width markerLen n last : Nat) (hlen : 0 < markerLen) (hw : 0 < width)
    (h : n ≤ last + width) : windowEnd width markerLen n last = n :=
  windowEnd_eq_length width markerLen n last h (by omega)

/-- The greatest index is at or behind every index. -/
theorem le_of_greatest {p : Nat → Bool} {n last : Nat} (h : greatest p n = some last) (i : Nat) (hi : i < n)
    (hp : p i = true) : i ≤ last := by
  obtain ⟨-, -, hmax⟩ := (greatest_eq_some p n last).mp h
  by_contra hlt
  simp [hmax i (by omega) hi] at hp

theorem resyncBytes_of_clean (m : Byte) (s before rest : List Byte) (a b c : Byte) (hfirst : s = m :: rest)
    (hlast : s = before ++ [m, a, b, c]) : resyncBytes m s = s := by
  have hzero : firstB m s = some 0 := firstB_eq_some m s 0 (by rw [hfirst]; rfl) fun i hi => absurd hi (by omega)
  obtain ⟨last, hl, -⟩ := greatest_isSome_of_least _ _ _ hzero
  have hlength : s.length = before.length + 4 := by rw [hlast, List.length_append]; rfl
  have hsync : syncAt m s before.length = true := by
    rw [syncAt_iff, hlast]
    simp
  have hle : before.length ≤ last := le_of_greatest hl before.length (by omega) hsync
  have hend : s.length ≤ last + frameWidth := hlength.trans_le (Nat.add_le_add_right hle 4)
  rw [resyncBytes_of_ends m s 0 last hzero hl,
    windowEnd_eq_length_of_le frameWidth 1 _ last (by decide) (by decide) hend, slice_all]

theorem resyncText_of_clean (m : Byte) (t before rest tail : List Nibble)
    (hfirst : t = hiNibble m :: loNibble m :: rest)
    (hlast : t = before ++ hiNibble m :: loNibble m :: tail) (htail : tail.length = 6) :
    resyncText m t = some t := by
  have hzero : firstT m t = some 0 := by
    refine firstT_eq_some m t 0 ((occText_iff m t 0).mpr ?_) fun i hi => absurd hi (by omega)
    rw [hfirst]
    exact ⟨rfl, rfl⟩
  obtain ⟨last, hl, -⟩ := greatest_isSome_of_least _ _ _ hzero
  have hlength : t.length = before.length + 8 := by
    rw [hlast, List.length_append, List.length_cons, List.length_cons, htail]
  have hocc : occText m t before.length = true := by
    rw [occText_iff, hlast]
    simp
  have hle : before.length ≤ last := le_of_greatest hl before.length (by omega) hocc
  have hend : t.length ≤ last + textFrameWidth := hlength.trans_le (Nat.add_le_add_right hle 8)
  rw [resyncText_of_ends m t 0 last hzero hl,
    windowEnd_eq_length_of_le textFrameWidth 2 _ last (by decide) (by decide) hend, slice_all]

/-- A concatenation of at least one block starts with a block and ends with one. -/
theorem exists_blocks_of_flatMap {α β : Type} (g : α → List β) (xs : List α) (h : xs ≠ []) :
    (∃ x rest, xs.flatMap g = g x ++ rest) ∧ ∃ before x, xs.flatMap g = before ++ g x := by
  constructor
  · obtain ⟨x, rest, rfl⟩ := List.exists_cons_of_ne_nil h
    exact ⟨x, rest.flatMap g, List.flatMap_cons⟩
  · refine ⟨xs.dropLast.flatMap g, xs.getLast h, ?_⟩
    conv_lhs => rw [← List.dropLast_append_getLast h]
    rw [List.flatMap_append, List.flatMap_singleton]

theorem resyncBytes_flatMap_packets (m : Byte) (fs : List (Byte × Byte × Byte)) :
    resyncBytes m (fs.flatMap fun f => [m, f.1, f.2.1, f.2.2]) =
      fs.flatMap fun f => [m, f.1, f.2.1, f.2.2] := by
  by_cases h : fs = []
  · subst h
    rfl
  · obtain ⟨⟨_, _, hfirst⟩, _, _, hlast⟩ :=
      exists_blocks_of_flatMap (fun f : Byte × Byte × Byte => [m, f.1, f.2.1, f.2.2]) fs h
    exact resyncBytes_of_clean m _ _ _ _ _ _ hfirst hlast

theorem resyncText_flatMap_packets (m : Byte) (fs : List (Byte × Byte × Byte)) (h : fs ≠ []) :
    resyncText m (fs.flatMap fun f => [m, f.1, f.2.1, f.2.2].flatMap fun b => [hiNibble b, loNibble b]) =
      some (fs.flatMap fun f => [m, f.1, f.2.1, f.2.2].flatMap fun b => [hiNibble b, loNibble b]) := by
  obtain ⟨⟨_, _, hfirst⟩, _, _, hlast⟩ := exists_blocks_of_flatMap
    (fun f : Byte × Byte × Byte => [m, f.1, f.2.1, f.2.2].flatMap fun b => [hiNibble b, loNibble b]) fs h
  exact resyncText_of_clean m _ _ _ _ hfirst hlast rfl

/-- On the byte path only the capacity can fail (R205). -/
theorem collectionError_bytes_of_withinDepth (d : BufDepth) (k : Nat) (xs : List Byte)
    (h : withinDepth d (k + xs.length)) : collectionError d false k xs = none := by
  induction xs generalizing k with
  | nil => rfl
  | cons u rest ih =>
    rw [List.length_cons, Nat.add_comm rest.length, ← Nat.add_assoc] at h
    have hcell := (cellExists_iff_withinDepth_succ d k).mpr (withinDepth_mono d (Nat.le_add_right _ _) h)
    rw [collectionError, hcell, if_neg (by simp), if_neg (by simp), ih (k + 1) h]

end Sys2Proof.Machine

open Sys2Proof Sys2Proof.Machine

/-- Settles O8: the first packet starts at index 0, and fewer units than a packet follow the marker of the
last one. -/
theorem resyncKeepsCleanStreams : Obligations.ResyncKeepsCleanStreams :=
  fun m fs => ⟨resyncBytes_flatMap_packets m fs, resyncText_flatMap_packets m fs⟩

/-- Settles O9: a window is a slice from the first marker on. -/
theorem windowIsPartStartingAtMarker : Obligations.WindowIsPartStartingAtMarker := by
  intro m octets t w
  refine ⟨?_, fun hw => ?_⟩
  · rcases resyncBytes_cases m octets with hnil | ⟨first, stop, hmarker, hslice⟩
    · rw [hnil]
      exact ⟨List.nil_infix, .inl rfl⟩
    · rw [hslice]
      exact ⟨slice_infix octets first stop, slice_head octets first stop m hmarker⟩
  · obtain ⟨first, stop, hocc, rfl⟩ := resyncText_eq_slice m t w hw
    refine ⟨slice_infix t first stop, ?_⟩
    rw [slice_of_occText m t first stop hocc]
    exact take_of_occurrence m _ _

/-- Settles O59: the stream is collected whole, and its window is the stream. -/
theorem resyncIsIdempotentOnCleanStreams : Obligations.ResyncIsIdempotentOnCleanStreams := by
  intro p mode fs hfits
  have hlength : (fs.flatMap fun f => [p.marker, f.1, f.2.1, f.2.2]).length = 4 * fs.length := by
    simp [List.length_flatMap, Nat.mul_comm]
  have hcollected : collectionError p.bufDepth false 0
      (fs.flatMap fun f => [p.marker, f.1, f.2.1, f.2.2]) = none :=
    collectionError_bytes_of_withinDepth _ 0 _ (by rwa [Nat.zero_add, hlength])
  rw [decodeStream_of_cutThrough p ⟨mode, false, false⟩ _ rfl rfl,
    decodeStream_of_collected p ⟨mode, false, true⟩ _ (.inr rfl) hcollected]
  simp only [octetsToFrame, Bool.false_eq_true, if_false, if_true, resyncBytes_flatMap_packets, resultOf]

end

section
/-! The decoder's values (spec/40_source_adapter.md, spec/44_unpacker.md): what `hv`, the identifier and the
record of a frame are as numbers, what `MODE` changes, and where three operations stop. -/

namespace Sys2Proof.Machine

/-! ### `HEX.VAL` (R100) -/

/-- The value of a code is its difference to the base of its range. -/
theorem setWidth_sub (c base : Byte) (h : base.toNat ≤ c.toNat) :
    (c - base).setWidth 4 = (.ofNat 4 (c.toNat - base.toNat) : Nibble) := by
  apply BitVec.eq_of_toNat_eq
  rw [BitVec.toNat_setWidth, BitVec.toNat_sub_of_le (BitVec.le_def.mpr h), BitVec.toNat_ofNat]

theorem hexValue_eq (c : Byte) : hexValue c =
    if 0x30 ≤ c.toNat ∧ c.toNat ≤ 0x39 then some (.ofNat 4 (c.toNat - 0x30))
    else if 0x41 ≤ c.toNat ∧ c.toNat ≤ 0x46 then some (.ofNat 4 (c.toNat - 0x37))
    else if 0x61 ≤ c.toNat ∧ c.toNat ≤ 0x66 then some (.ofNat 4 (c.toNat - 0x57))
    else none := by
  have hrange (k l : Byte) : (k ≤ c ∧ c ≤ l) = (k.toNat ≤ c.toNat ∧ c.toNat ≤ l.toNat) := by
    rw [BitVec.le_def, BitVec.le_def]
  simp only [hexValue, hrange]
  change (if 0x30 ≤ c.toNat ∧ c.toNat ≤ 0x39 then _ else if 0x41 ≤ c.toNat ∧ c.toNat ≤ 0x46 then _ else
    if 0x61 ≤ c.toNat ∧ c.toNat ≤ 0x66 then _ else _) = _
  split_ifs with hdigit hupper hlower
  · exact congrArg some (setWidth_sub c 0x30#8 hdigit.1)
  · exact congrArg some (setWidth_sub c 0x37#8 (le_trans (by decide) hupper.1))
  · exact congrArg some (setWidth_sub c 0x57#8 (le_trans (by decide) hlower.1))
  · rfl

theorem exec_hexVal (c : Byte) (s : State) :
    exec (.hexVal c) s = .next (s.deliver (.hex (hexValue c))) := by
  simp only [exec, execHexVal, isHex_eq_isSome]
  cases hexValue c <;> rfl

/-! ### The identifier (R83, R160) -/

/-- `{a, b}` of two octets is big-endian (R50). -/
theorem append_bytes_toNat (a b : Byte) : (a ++ b : BitVec 16).toNat = a.toNat * 256 + b.toNat :=
  unpackScaled_toNat ⟨0, a, b⟩

theorem lowercaseDigit_toNat (v : Nibble) :
    (lowercaseDigit v).toNat = if v.toNat ≤ 9 then 0x30 + v.toNat else 0x57 + v.toNat := by
  revert v; decide

theorem unpackId_toNat (m : Byte) : (unpackId m).toNat =
    256 * (if m.toNat / 16 ≤ 9 then 0x30 + m.toNat / 16 else 0x57 + m.toNat / 16)
      + (if m.toNat % 16 ≤ 9 then 0x30 + m.toNat % 16 else 0x57 + m.toNat % 16) := by
  rw [unpackId, append_bytes_toNat, lowercaseDigit_toNat, lowercaseDigit_toNat, hiNibble_toNat, loNibble_toNat,
    Nat.mul_comm]

theorem exec_unpId (f : ValidFrame) (s : State) :
    exec (.unpId f) s = .next (s.deliver (.ident (unpackId s.params.marker))) := rfl

/-! ### The record (R162 to R167, R171) -/

theorem unpack_hexcat_of_some (m : Byte) (f : ValidFrame) (c : BitVec 16) (h : unpackHexcat f = some c) :
    unpack m .hexDigitConcatenation f = some ⟨unpackId m, f.counter, c⟩ := by
  rw [unpack_hexcat, h]
  rfl

theorem unpack_hexcat_of_none (m : Byte) (f : ValidFrame) (h : unpackHexcat f = none) :
    unpack m .hexDigitConcatenation f = none := by
  rw [unpack_hexcat, h]
  rfl

/-- The record of mode 1 holds the decimal literal of the payload. -/
theorem centi_of_unpack_hexcat (m : Byte) (f : ValidFrame) (r : SensorRecord)
    (h : unpack m .hexDigitConcatenation f = some r) :
    r.centi.toNat = 1000 * (f.hi.toNat / 16) + 100 * (f.hi.toNat % 16) + 10 * (f.lo.toNat / 16)
      + f.lo.toNat % 16 := by
  obtain ⟨-, hnone⟩ | ⟨c, -, hc, hvalue⟩ := unpackHexcat_cases f
  · rw [unpack_hexcat_of_none m f hnone] at h
    cases h
  · rw [unpack_hexcat_of_some m f c hc] at h
    obtain rfl := Option.some.inj h
    exact hvalue

theorem centi_of_unpack_scaled (m : Byte) (f : ValidFrame) (r : SensorRecord)
    (h : unpack m .scaledInteger f = some r) : r.centi.toNat = f.hi.toNat * 256 + f.lo.toNat := by
  obtain rfl := Option.some.inj ((unpack_scaled m f).symm.trans h)
  exact unpackScaled_toNat f

theorem pressure_eq (r : SensorRecord) (n : Nat) (h : r.centi.toNat = n) : pressure r = (n : ℚ) / 100 := by
  rw [pressure, h]
  norm_num

theorem pressure_injective_centi (q r : SensorRecord) : pressure q = pressure r ↔ q.centi = r.centi := by
  rw [pressure_eq q _ rfl, pressure_eq r _ rfl, div_left_inj' (by norm_num), Nat.cast_inj, BitVec.toNat_inj]

/-! ### The two modes (R166, R172) -/

/-- The fields of a record that `MODE` does not touch. -/
def SensorRecord.source (r : SensorRecord) : BitVec 16 × BitVec 7 := (r.id, r.counter)

/-- The same fields, as the frame gives them. -/
def frameSource (marker : Byte) (f : ValidFrame) : BitVec 16 × BitVec 7 := (unpackId marker, f.counter)

theorem source_of_unpack (m : Byte) (mode : Mode) (f : ValidFrame) (r : SensorRecord)
    (h : unpack m mode f = some r) : r.source = frameSource m f := by
  obtain ⟨c, -, rfl⟩ := Option.map_eq_some_iff.mp h
  rfl

/-- The records are those of the frames up to the first `Fail`, and the status tells whether there was one. -/
theorem unpackAll_sources (m : Byte) (mode : Mode) (fs : List ValidFrame) :
    ((unpackAll m mode fs).2 = .ok ∧
      (unpackAll m mode fs).1.map SensorRecord.source = fs.map (frameSource m)) ∨
    ((unpackAll m mode fs).2 = .decodeFailure ∧
      (unpackAll m mode fs).1.map SensorRecord.source <+: fs.map (frameSource m)) := by
  induction fs with
  | nil => exact .inl ⟨rfl, rfl⟩
  | cons f rest ih =>
    rw [unpackAll]
    cases hr : unpack m mode f with
    | none => exact .inr ⟨rfl, List.nil_prefix⟩
    | some r =>
      simp only [List.map_cons, source_of_unpack m mode f r hr, List.cons.injEq, true_and,
        List.prefix_cons_inj]
      exact ih

/-- Mode 0 never fails (R163), so every frame gives its record. -/
theorem unpackAll_scaled (m : Byte) (fs : List ValidFrame) : (unpackAll m .scaledInteger fs).2 = .ok ∧
    (unpackAll m .scaledInteger fs).1.map SensorRecord.source = fs.map (frameSource m) := by
  induction fs with
  | nil => exact ⟨rfl, rfl⟩
  | cons f rest ih =>
    obtain ⟨hstatus, hsources⟩ := ih
    exact ⟨hstatus, congrArg (frameSource m f :: ·) hsources⟩

theorem collectionError_ne_decodeFailure (d : BufDepth) (text : Bool) (k : Nat) (input : List Byte) :
    collectionError d text k input ≠ some .decodeFailure := by
  induction input generalizing k with
  | nil => simp [collectionError]
  | cons u rest ih =>
    rw [collectionError]
    split_ifs
    · simp
    · simp
    · exact ih (k + 1)

/-- `MODE` is first looked at when frames are decoded: a stream fails before that in both modes alike, or has
one octet sequence to frame (R192). -/
theorem decodeStream_of_modes (p : Params) (text resync : Bool) (input : List Byte) :
    (∃ e, e ≠ .decodeFailure ∧ ∀ mode, decodeStream p ⟨mode, text, resync⟩ input = failedResult e) ∨
    ∃ octets, ∀ mode, decodeStream p ⟨mode, text, resync⟩ input = decodeOctets p.marker mode octets := by
  have hframe (mode : Mode) : octetsToFrame p.marker ⟨mode, text, resync⟩ input =
    octetsToFrame p.marker ⟨.scaledInteger, text, resync⟩ input := rfl
  simp only [decodeStream, hframe]
  cases hcollect : (if text || resync then collectionError p.bufDepth text 0 input else none) with
  | some e =>
    refine .inl ⟨e, ?_, fun _ => rfl⟩
    rintro rfl
    split_ifs at hcollect
    exact collectionError_ne_decodeFailure _ _ _ _ hcollect
  | none =>
    cases octetsToFrame p.marker ⟨.scaledInteger, text, resync⟩ input with
    | none => exact .inl ⟨.malformedInput, by simp, fun _ => rfl⟩
    | some octets => exact .inr ⟨octets, fun _ => rfl⟩

/-! ### Stops (I4) -/

theorem exec_hexPair_of_odd (t : List Nibble) (s : State) (h : t.length % 2 = 1) :
    exec (.hexPair t) s = .fault .oddLength := if_neg (by omega)

theorem exec_frAppend_of_full (b : Byte) (s : State) (h : frameLen s.frame = 4) :
    exec (.frAppend b) s = .fault .frameFull := by
  simp only [exec, execFrAppend, (frameAppend_eq_none s.frame b).mpr ((full_iff _).mpr h)]

theorem exec_sbLd_of_ge (i : Nat) (s : State) (h : s.count ≤ i) : exec (.sbLd i) s = .fault .noValue := by
  simp only [exec, execSbLd, s.memRead_of_ge i h]

end Sys2Proof.Machine

open Sys2Proof Sys2Proof.Machine

/-- Settles O1: the result is `hexValue`, range by range. -/
theorem hexValGivesDigitValue : Obligations.HexValGivesDigitValue := by
  intro c s
  rw [← hexValue_eq]
  exact exec_hexVal c s

/-- Settles O21: the value is `unpackId` of the marker. -/
theorem unpIdIsMarkerText : Obligations.UnpIdIsMarkerText := by
  intro f s
  refine ⟨_, exec_unpId f s, unpackId_toNat _, fun hm => ?_⟩
  rw [hm]
  rfl

/-- Settles O25: identifier and counter are the same in both modes, and `unpackHexcat` decides mode 1. -/
theorem unpackGivesRecord : Obligations.UnpackGivesRecord := by
  intro m f0 f1 f2 f3 v hv
  obtain ⟨hcounter, rfl, rfl⟩ := fields_of_validated m f0 f1 f2 f3 v hv
  rw [← nondecimal_eq_false]
  refine ⟨unpackId m, v.counter, unpackId_toNat m, hcounter, ⟨_, unpack_scaled m v, unpackScaled_toNat v⟩,
    fun hdec => ?_, fun hnon => unpack_hexcat_of_none m v (unpackHexcat_of_nondecimal v hnon)⟩
  obtain ⟨c, hc, hvalue⟩ := unpackHexcat_of_decimal v hdec
  exact ⟨c, unpack_hexcat_of_some m v c hc, hvalue⟩

/-- Settles O26: `centi` counts hundredths, in mode 1 of the literal's digits. -/
theorem recordDenotesPressure : Obligations.RecordDenotesPressure := by
  refine ⟨fun m f0 f1 f2 f3 v r hv => ?_, pressure_injective_centi⟩
  obtain ⟨-, rfl, rfl⟩ := fields_of_validated m f0 f1 f2 f3 v hv
  refine ⟨fun hr => pressure_eq r _ (centi_of_unpack_scaled m v r hr), fun hr => ?_⟩
  rw [pressure_eq r _ (centi_of_unpack_hexcat m v r hr)]
  push_cast
  ring

/-- Settles O27: a decimal digit above the last is worth more in the big-endian integer. -/
theorem modesAgreeOnlyBelowTen : Obligations.ModesAgreeOnlyBelowTen := by
  intro f
  obtain ⟨hnon, hnone⟩ | ⟨c, hdec, hc, hvalue⟩ := unpackHexcat_cases f
  · rw [hnone]
    refine iff_of_false (by simp) fun ⟨hhi, hlo⟩ => ?_
    have hdec := (nondecimal_eq_false f.hi f.lo).mpr (by omega)
    simp [hdec] at hnon
  · have hdigits := (nondecimal_eq_false f.hi f.lo).mp hdec
    rw [hc, Option.some.injEq, ← BitVec.toNat_inj, hvalue, unpackScaled_toNat]
    omega

/-- Settles O28: before the frames are decoded `MODE` has no say, and their decodes give the same records but
for `centi`, up to the first `Fail`. -/
theorem modeChangesOnlyCenti : Obligations.ModeChangesOnlyCenti := by
  intro p text resync input
  obtain ⟨e, he, hfailed⟩ | ⟨octets, hframed⟩ := decodeStream_of_modes p text resync input
  · rw [hfailed, hfailed]
    exact ⟨rfl, rfl, he, .inl ⟨rfl, rfl⟩⟩
  · rw [hframed, hframed]
    obtain ⟨hok, hall⟩ := unpackAll_scaled p.marker ((frames p.marker octets).filterMap (validFrame p.marker))
    refine ⟨rfl, rfl, ne_of_eq_of_ne hok (by simp), ?_⟩
    rcases unpackAll_sources p.marker .hexDigitConcatenation
        ((frames p.marker octets).filterMap (validFrame p.marker)) with ⟨hstatus, hsources⟩ | ⟨hstatus, hprefix⟩
    · exact .inl ⟨hstatus.trans hok.symm, hsources.trans hall.symm⟩
    · rw [← hall] at hprefix
      exact .inr ⟨hstatus, hok, hprefix⟩

/-- Settles O31: each operation looks for its operand first. -/
theorem operationsStopOutsideTheirDomain : Obligations.OperationsStopOutsideTheirDomain :=
  fun s => ⟨fun t h => exec_hexPair_of_odd t s h, fun b h => exec_frAppend_of_full b s h,
    fun i h => exec_sbLd_of_ge i s h⟩

end
